-- ==== Sys2Proof/Word.lean ====
section
/-! DEFINITION. The word types of the core: every datum is one unsigned byte (R7, R62), the program counter is
9 bits wide (R24), an instruction kind is a nibble (R81). -/

namespace Sys2Proof

/-- An 8-bit datum: the accumulator, a memory cell, a port, a history slot, an argument byte (R5, R62). -/
abbrev Byte := BitVec 8

/-- The 9-bit program counter, and the 9-bit `fault.info` (R24, R35). -/
abbrev PcWord := BitVec 9

/-- The kind field `op[7:4]` (R81). -/
abbrev Nibble := BitVec 4

end Sys2Proof
end

