-- ==== Sys2Proof/Config.lean ====
section
/-! DEFINITION. The parameters of the hardware (00_scope.md R5) and what the host chooses when a block is built (R39).
The spec leaves no instruction result open, so there is no free value here. -/

namespace Sys2Proof.Config

/-- `MEM_SIZE`: memory cells (R5). -/
def memSize : Nat := 256

/-- `HIST_DEPTH`: output history slots (R5). -/
abbrev histDepth : Nat := 40

/-- `IN_PORTS` of this hardware (R5, R30). -/
def inPorts : Nat := 256

/-- The most input ports any configuration may have (R5, R39). -/
def maxInPorts : Nat := 256

/-- What the host fixes before the first reset: `PROGRAM_IMAGE`, and the `in_port` values whose number is `IN_PORTS`
(R39, R41, R45). -/
structure Build where
  /-- `PROGRAM_IMAGE`, the first byte going to address 0. -/
  image : List Byte
  /-- `PORT_VALUES`, port 0 first. -/
  ports : List Byte
  deriving DecidableEq, Repr

end Sys2Proof.Config
end

