-- ==== Sys2Proof/Machine/State.lean ====
section
/-! DEFINITION. The architectural state, exactly the list of 10_state.md R20, and why a step or a construction may give
no state. -/

namespace Sys2Proof.Machine

/-- Memory: address and byte pairs, addresses strictly rising, no byte equal to the 0 that an unlisted address reads as
(R29, R38; log entry 3). -/
abbrev Memory := List Host.Cell

/-- `fault.cause`, whose four codes are all in use (R35, R180). -/
inductive FaultCause where
  /-- 0 NONE: no fault recorded. -/
  | none
  /-- 1 FETCH_OOB: the opcode fetch with `pc >= 256`. -/
  | fetchOob
  /-- 2 ARG_OOB: the argument fetch with `pc + 1 >= 256`. -/
  | argOob
  /-- 3 PORT_OOB: IN with a port index at or above `IN_PORTS`. -/
  | portOob
  deriving DecidableEq, Repr

/-- The fault record (R35). -/
structure FaultRecord where
  /-- 1 once a fault has been recorded. -/
  valid : Bool
  /-- What failed. -/
  cause : FaultCause
  /-- The out-of-range address or port index. -/
  info : PcWord
  deriving DecidableEq, Repr

/-- The architectural state (R20). The core has no hidden state (R36). -/
structure State where
  /-- The accumulator (R21). -/
  acc : Byte
  /-- The program counter (R24). -/
  pc : PcWord
  /-- The unified memory `M` (R29). -/
  mem : Memory
  /-- The input ports `P`, port 0 first; their number is `IN_PORTS` (R30; log entry 4). -/
  ports : List Byte
  /-- The output history `H`, most recent first (R31). -/
  hist : Vector Byte Config.histDepth
  /-- Set by HLT (R33). -/
  halted : Bool
  /-- The fault record (R35). -/
  fault : FaultRecord
  deriving DecidableEq, Repr

/-- Why the MODEL stops. The core's own faults (R180) are no stops: they are next states with the record written. -/
inductive Fault where
  /-- Raised by `step` if the decoder gives no instruction for the bytes that were fetched (I11); this never happens,
  since decoding is total (R84). Safe: the machine would stop where the spec says nothing. -/
  | decoderInvariant
  deriving DecidableEq, Repr

/-- What the model turns away. -/
inductive Refusal where
  /-- An instruction with no meaning yet; raised by no arm of `exec`. Safe. -/
  | notModelled (mnemonic : String)
  /-- Raised by `construct` for a program image over 256 bytes, as R211 says. Safe: the spec gives no state either. -/
  | imageTooLong
  /-- Raised by `construct` for a number of ports outside 1..256 (R39; log entry 13). Safe: the spec gives no such
  block. -/
  | portCountOutOfRange
  /-- Raised by `Block.edge` at a reset edge whose `in_port` values are not `IN_PORTS` many, which the spec fixes when the
  block is built (R39; log entry 13). Safe: the block has no such wires. -/
  | portCountChanged
  /-- Raised by `Block.edge` when a step begins or goes on at an edge whose `in_port` values are not those of the reset
  edge: the host breaks its duty, and I10 asks a model to refuse (R41, R45; log entry 5). Safe: the model stops. -/
  | portsChangedDuringRun
  deriving DecidableEq, Repr

/-- The state right after reset (R38), with the empty program image (log entry 2) and, as the spec leaves the port
values to the host, 256 ports of value 0 (DESIGN CHOICE, unsafe: log entry 1). -/
def State.reset : State where
  acc := 0
  pc := 0
  mem := []
  ports := List.replicate Config.inPorts 0
  hist := Vector.replicate Config.histDepth 0
  halted := false
  fault := ⟨false, .none, 0⟩

end Sys2Proof.Machine
end

