-- ==== Sys2Proof/Machine/Ops.lean ====
section
/-! DEFINITION. The primitives of 00_scope.md R10 and the named reads and writes of the state. Raising a fault, the
core's one exception entry, is `State.raiseFault` (60_exceptions.md R183); there is no return from it (R185): the only
way out is reset (Reset.lean). -/

namespace Sys2Proof.Machine

/-- The canonical form: addresses strictly rising and inside memory (R60), no byte equal to what an unlisted address
reads as. -/
abbrev Memory.wf (m : Memory) : Prop :=
  List.Pairwise (fun c d : Host.Cell => c.1 < d.1) m ∧ ∀ c ∈ m, c.1 < Config.memSize ∧ c.2 ≠ 0

/-- What a cell that is not listed holds: R38 zero-fills memory behind the image (log entry 3). -/
def Memory.unlisted : Byte := 0

/-- The byte at an address. -/
def Memory.read : Memory → Nat → Byte
  | [], _ => Memory.unlisted
  | (b, v) :: m, a => if b = a then v else Memory.read m a

/-- The memory without its entry at an address. -/
def Memory.erase (m : Memory) (a : Nat) : Memory :=
  m.filter (fun c => c.1 != a)

/-- The memory with an entry put in front of the first higher address. -/
def Memory.insert : Memory → Nat → Byte → Memory
  | [], a, v => [(a, v)]
  | (b, w) :: m, a, v => if a < b then (a, v) :: (b, w) :: m else (b, w) :: Memory.insert m a v

/-- `M[a] <- v`, keeping the canonical form. -/
def Memory.write (m : Memory) (a : Nat) (v : Byte) : Memory :=
  if v = Memory.unlisted then m.erase a else (m.erase a).insert a v

/-- `MemRead(a, 1)` (R10). -/
def State.memRead (s : State) (a : Byte) : Byte :=
  s.mem.read a.toNat

/-- `MemWrite(a, 1, v)` (R10). -/
def State.memWrite (s : State) (a v : Byte) : State :=
  { s with mem := s.mem.write a.toNat v }

/-- `PortRead(p)`, or nothing when `p >= IN_PORTS` (R10, R160). -/
def State.portRead (s : State) (p : Byte) : Option Byte :=
  s.ports[p.toNat]?

/-- `acc <- v`. -/
def State.setAcc (s : State) (v : Byte) : State :=
  { s with acc := v }

/-- `pc <- target`. -/
def State.setPc (s : State) (target : PcWord) : State :=
  { s with pc := target }

/-- `pc <- pc + n`, with no reduction modulo 256 (R26, R104; log entry 6). -/
def State.advance (s : State) (n : PcWord) : State :=
  { s with pc := s.pc + n }

/-- The history shifted by one slot with `v` in front, slot 39 dropped (R162). -/
def History.push (v : Byte) (h : Vector Byte Config.histDepth) : Vector Byte Config.histDepth :=
  ⟨(v :: h.toList.take (Config.histDepth - 1)).toArray, by simp [Config.histDepth]⟩

/-- `HistPush(v)` (R10, R162). -/
def State.histPush (s : State) (v : Byte) : State :=
  { s with hist := History.push v s.hist }

/-- `halted <- 1` (R172). -/
def State.halt (s : State) : State :=
  { s with halted := true }

/-- `raise Fault(cause, info)`: the fault record is written and nothing else (R183). -/
def State.raiseFault (s : State) (cause : FaultCause) (info : PcWord) : State :=
  { s with fault := ⟨true, cause, info⟩ }

/-- The run is over: halted or faulted, so that no further step executes (R101, R106). -/
def State.ended (s : State) : Bool :=
  s.halted || s.fault.valid

/-- The code of a cause, as `fault_cause_o` shows it (R35, R42, R180). -/
def FaultCause.code : FaultCause → BitVec 2
  | .none => 0
  | .fetchOob => 1
  | .argOob => 2
  | .portOob => 3

/-- Bytes stored at rising addresses from `a` on; what would lie outside memory is not stored. -/
def Memory.place : Memory → Nat → List Byte → Memory
  | m, _, [] => m
  | m, a, b :: bs => if a < Config.memSize then Memory.place (m.write a b) (a + 1) bs else m

end Sys2Proof.Machine
end

