-- ==== Sys2Proof/Machine/Operands.lean ====
section
/-! DEFINITION. The uses of the argument byte (30_encoding.md R83): a memory address, a jump target, a port index, a
literal. There is no other operand form. -/

namespace Sys2Proof.Machine

/-- `zext_9(v)` (R7). -/
def zext9 (v : Byte) : PcWord :=
  v.setWidth 9

/-- A memory address: the operand is the cell it names (R83). -/
def addressedByte (addr : Byte) (s : State) : Byte :=
  s.memRead addr

/-- An absolute jump target (R83, R145). -/
def jumpTarget (target : Byte) : PcWord :=
  zext9 target

/-- A port index: the operand is the port it names, if there is one (R83, R160). -/
def portValue (port : Byte) (s : State) : Option Byte :=
  s.portRead port

/-- An immediate: the operand is the argument byte itself, never a load (R83, R122). -/
def literal (val : Byte) : Byte :=
  val

/-- `pc <- zext_9(arg)` when taken, else `pc <- pc + 2`; nothing else is written (R145, R150). -/
def branch (taken : Bool) (target : Byte) (s : State) : State :=
  if taken then s.setPc (jumpTarget target) else s.advance 2

end Sys2Proof.Machine
end

