-- ==== Sys2Proof/Machine/Alu.lean ====
section
/-! DEFINITION. ADD, OR, AND, NOT, SUB (42_alu.md R130-R135): 8-bit unsigned, results reduced modulo 256, no carry,
borrow or overflow recorded and no trap. -/

namespace Sys2Proof.Machine

/-- R130: `(acc + m) mod 256` (R8). -/
def execAdd (addr : Byte) (s : State) : Host.Outcome State Fault Refusal :=
  .next ((s.setAcc (s.acc + addressedByte addr s)).advance 2)

/-- R131. -/
def execOr (addr : Byte) (s : State) : Host.Outcome State Fault Refusal :=
  .next ((s.setAcc (s.acc ||| addressedByte addr s)).advance 2)

/-- R132. -/
def execAnd (addr : Byte) (s : State) : Host.Outcome State Fault Refusal :=
  .next ((s.setAcc (s.acc &&& addressedByte addr s)).advance 2)

/-- R133. -/
def execNot (s : State) : Host.Outcome State Fault Refusal :=
  .next ((s.setAcc (~~~s.acc)).advance 1)

/-- R134: `(acc - m + 256) mod 256`, accumulator minus memory (R8). -/
def execSub (addr : Byte) (s : State) : Host.Outcome State Fault Refusal :=
  .next ((s.setAcc (s.acc - addressedByte addr s)).advance 2)

end Sys2Proof.Machine
end

