-- ==== Sys2Proof/Machine/Flags.lean ====
section
/-! DEFINITION. The core has no flags (10_state.md R23): the conditional jumps test the accumulator itself. Their three
conditions (43_control_transfer.md R148) stand here. -/

namespace Sys2Proof.Machine

/-- JN is taken when `acc >= 64`, unsigned; no sign test, no single-bit test (R147, conflict C1; log entry 8). -/
def jnTaken (acc : Byte) : Bool :=
  decide (64 ≤ acc.toNat)

/-- JZ is taken when `acc = 0` (R149). -/
def jzTaken (acc : Byte) : Bool :=
  acc == 0

/-- JNZ is taken when `acc != 0` (R151). -/
def jnzTaken (acc : Byte) : Bool :=
  acc != 0

end Sys2Proof.Machine
end

