-- ==== Sys2Proof/Machine/ControlTransfer.lean ====
section
/-! DEFINITION. JMP, JN, JZ, JNZ (43_control_transfer.md R145-R151). -/

namespace Sys2Proof.Machine

/-- R146. -/
def execJmp (target : Byte) (s : State) : Host.Outcome State Fault Refusal :=
  .next (branch true target s)

/-- R147. -/
def execJn (target : Byte) (s : State) : Host.Outcome State Fault Refusal :=
  .next (branch (jnTaken s.acc) target s)

/-- R149. -/
def execJz (target : Byte) (s : State) : Host.Outcome State Fault Refusal :=
  .next (branch (jzTaken s.acc) target s)

/-- R151. -/
def execJnz (target : Byte) (s : State) : Host.Outcome State Fault Refusal :=
  .next (branch (jnzTaken s.acc) target s)

end Sys2Proof.Machine
end

