-- ==== Sys2Proof/Machine/DataTransfer.lean ====
section
/-! DEFINITION. STA, LDA, LDI (41_data_transfer.md R120-R122). -/

namespace Sys2Proof.Machine

/-- R120. -/
def execSta (addr : Byte) (s : State) : Host.Outcome State Fault Refusal :=
  .next ((s.memWrite addr s.acc).advance 2)

/-- R121. -/
def execLda (addr : Byte) (s : State) : Host.Outcome State Fault Refusal :=
  .next ((s.setAcc (addressedByte addr s)).advance 2)

/-- R122. -/
def execLdi (val : Byte) (s : State) : Host.Outcome State Fault Refusal :=
  .next ((s.setAcc (literal val)).advance 2)

end Sys2Proof.Machine
end

