-- ==== Sys2Proof/Machine/InputOutput.lean ====
section
/-! DEFINITION. IN, OUT (44_io.md R160-R162). -/

namespace Sys2Proof.Machine

/-- R160: the port's value, or PORT_OOB with the index when `port >= IN_PORTS`. -/
def execIn (port : Byte) (s : State) : Host.Outcome State Fault Refusal :=
  match portValue port s with
  | some v => .next ((s.setAcc v).advance 2)
  | none => .next (s.raiseFault .portOob (zext9 port))

/-- R161. -/
def execOut (s : State) : Host.Outcome State Fault Refusal :=
  .next ((s.histPush s.acc).advance 1)

end Sys2Proof.Machine
end

