-- ==== Sys2Proof/Machine/System.lean ====
section
/-! DEFINITION. NOP, HLT (45_system.md R170-R172). -/

namespace Sys2Proof.Machine

/-- R170. -/
def execNop (s : State) : Host.Outcome State Fault Refusal :=
  .next (s.advance 1)

/-- R172. -/
def execHlt (s : State) : Host.Outcome State Fault Refusal :=
  .next (s.halt.advance 1)

end Sys2Proof.Machine
end

