-- ==== Sys2Proof/Syntax.lean ====
section
/-! DEFINITION. The sixteen instructions of the opcode map (30_encoding.md R86), one constructor per row of
spec/opcode_table.json. The low nibble of the opcode byte is no part of an instruction (R81), so it has no field. -/

namespace Sys2Proof

/-- An instruction with its argument byte, if its kind has one (R80, R83). -/
inductive Instr where
  | nop
  | sta (addr : Byte)
  | lda (addr : Byte)
  | add (addr : Byte)
  | or (addr : Byte)
  | and (addr : Byte)
  | not
  | sub (addr : Byte)
  | jmp (target : Byte)
  | jn (target : Byte)
  | jz (target : Byte)
  | jnz (target : Byte)
  | inp (port : Byte)
  | out
  | ldi (val : Byte)
  | hlt
  deriving DecidableEq, Repr

end Sys2Proof
end

