-- ==== Sys2Proof/Machine/Dispatch.lean ====
section
/-! DEFINITION. `Execute(K, arg)` (40_fetch_execute.md R103): one arm per instruction. -/

namespace Sys2Proof.Machine

/-- The operation rule of each kind (R103). -/
def exec (i : Instr) (s : State) : Host.Outcome State Fault Refusal :=
  match i with
  | .nop => Sys2Proof.Machine.execNop s
  | .sta addr => Sys2Proof.Machine.execSta addr s
  | .lda addr => Sys2Proof.Machine.execLda addr s
  | .add addr => Sys2Proof.Machine.execAdd addr s
  | .or addr => Sys2Proof.Machine.execOr addr s
  | .and addr => Sys2Proof.Machine.execAnd addr s
  | .not => Sys2Proof.Machine.execNot s
  | .sub addr => Sys2Proof.Machine.execSub addr s
  | .jmp target => Sys2Proof.Machine.execJmp target s
  | .jn target => Sys2Proof.Machine.execJn target s
  | .jz target => Sys2Proof.Machine.execJz target s
  | .jnz target => Sys2Proof.Machine.execJnz target s
  | .inp port => Sys2Proof.Machine.execIn port s
  | .out => Sys2Proof.Machine.execOut s
  | .ldi val => Sys2Proof.Machine.execLdi val s
  | .hlt => Sys2Proof.Machine.execHlt s

end Sys2Proof.Machine
end

