-- ==== Sys2Proof/Decode.lean ====
section
/-! DEFINITION. Decoding and encoding (30_encoding.md). The kind is the high nibble and nothing else (R81, R84). -/

namespace Sys2Proof

/-- The sixteen kinds, in the order of the opcode map (R86). -/
inductive Kind where
  | nop | sta | lda | add | or | and | not | sub | jmp | jn | jz | jnz | inp | out | ldi | hlt
  deriving DecidableEq, Repr

/-- Why bytes give no instruction: there are none, or a Format B kind's argument byte is missing. No opcode byte is
ever refused (R84, R87). -/
inductive DecodeError where
  | noOpcode
  | noArgument (k : Kind)
  deriving DecidableEq, Repr

/-- The opcode map: the kind of nibble `n` stands at index `n` (R86). -/
def opcodeMap : List Kind :=
  [.nop, .sta, .lda, .add, .or, .and, .not, .sub, .jmp, .jn, .jz, .jnz, .inp, .out, .ldi, .hlt]

/-- The kind a nibble names; the map has a row for each of the 16 nibbles, so nothing is left over (R84). -/
def Kind.ofNibble (n : Nibble) : Kind :=
  opcodeMap[n.toNat]'n.isLt

/-- `op[7:4]` (R81). -/
def highNibble (op : Byte) : Nibble :=
  op.extractLsb' 4 4

/-- `Decode(op) = op[7:4]`, a total function of the opcode byte (R84). -/
def Kind.ofOpcode (op : Byte) : Kind :=
  Kind.ofNibble (highNibble op)

/-- `needs_arg(K)`: the kind is of Format B (R82, R85). -/
def Kind.needsArg : Kind → Bool
  | .nop => false
  | .sta => true
  | .lda => true
  | .add => true
  | .or => true
  | .and => true
  | .not => false
  | .sub => true
  | .jmp => true
  | .jn => true
  | .jz => true
  | .jnz => true
  | .inp => true
  | .out => false
  | .ldi => true
  | .hlt => false

/-- `length(K) = 1 + needs_arg(K)`, in bytes (R85). -/
def Kind.length (k : Kind) : Nat :=
  if k.needsArg then 2 else 1

/-- The instruction of a kind with an argument byte, which the Format A kinds do not have and do not look at (R83). -/
def Instr.ofKind (k : Kind) (arg : Byte) : Instr :=
  match k with
  | .nop => .nop
  | .sta => .sta arg
  | .lda => .lda arg
  | .add => .add arg
  | .or => .or arg
  | .and => .and arg
  | .not => .not
  | .sub => .sub arg
  | .jmp => .jmp arg
  | .jn => .jn arg
  | .jz => .jz arg
  | .jnz => .jnz arg
  | .inp => .inp arg
  | .out => .out
  | .ldi => .ldi arg
  | .hlt => .hlt

/-- Reads one instruction from the front of a list of bytes and gives it with the bytes after it (R80, R82, R88). -/
def decode : List Byte → Except DecodeError (Instr × List Byte)
  | [] => .error .noOpcode
  | op :: rest =>
    if (Kind.ofOpcode op).needsArg then
      match rest with
      | [] => .error (.noArgument (Kind.ofOpcode op))
      | arg :: after => .ok (Instr.ofKind (Kind.ofOpcode op) arg, after)
    else .ok (Instr.ofKind (Kind.ofOpcode op) 0, rest)

/-- The kind an instruction is of. -/
def Instr.kind : Instr → Kind
  | .nop => .nop
  | .sta _ => .sta
  | .lda _ => .lda
  | .add _ => .add
  | .or _ => .or
  | .and _ => .and
  | .not => .not
  | .sub _ => .sub
  | .jmp _ => .jmp
  | .jn _ => .jn
  | .jz _ => .jz
  | .jnz _ => .jnz
  | .inp _ => .inp
  | .out => .out
  | .ldi _ => .ldi
  | .hlt => .hlt

/-- The argument byte, if the format has one (R80). -/
def Instr.arg : Instr → Option Byte
  | .nop => none
  | .sta addr => some addr
  | .lda addr => some addr
  | .add addr => some addr
  | .or addr => some addr
  | .and addr => some addr
  | .not => none
  | .sub addr => some addr
  | .jmp target => some target
  | .jn target => some target
  | .jz target => some target
  | .jnz target => some target
  | .inp port => some port
  | .out => none
  | .ldi val => some val
  | .hlt => none

/-- The number of a kind in the opcode map (R86). -/
def Kind.nibble : Kind → Nibble
  | .nop => 0x0
  | .sta => 0x1
  | .lda => 0x2
  | .add => 0x3
  | .or => 0x4
  | .and => 0x5
  | .not => 0x6
  | .sub => 0x7
  | .jmp => 0x8
  | .jn => 0x9
  | .jz => 0xA
  | .jnz => 0xB
  | .inp => 0xC
  | .out => 0xD
  | .ldi => 0xE
  | .hlt => 0xF

/-- The canonical opcode byte `K << 4`: the low nibble is 0 (R90). -/
def Kind.opcode (k : Kind) : Byte :=
  k.nibble ++ (0 : BitVec 4)

/-- The canonical bytes of an instruction, the opcode byte first (R63, R80, R90). -/
def encode (i : Instr) : List Byte :=
  i.kind.opcode :: i.arg.toList

/-- The two bytes of a table word: bits 7..0 lie at the lower address, bits 15..8 after them, and every bit from
`nbits` up is 0. -/
def tableWordBytes (nbits w : Nat) : List Byte :=
  let v := w % 2 ^ nbits
  [BitVec.ofNat 8 v, BitVec.ofNat 8 (v / 256)]

/-- The instruction the decoder reads from a word numbered as spec/opcode_table.json numbers it. -/
def decodeTableWord (nbits w : Nat) : Option Instr :=
  match decode (tableWordBytes nbits w) with
  | .ok (i, _) => some i
  | .error _ => none

end Sys2Proof
end

