-- ==== Sys2Proof/Machine/Fetch.lean ====
section
/-! DEFINITION. The fetch part of the step (40_fetch_execute.md R100 (a) and (b), R102) and the placing of an
instruction where the next fetch finds it. -/

namespace Sys2Proof.Machine

/-- The opcode byte at the program counter, for `pc <= 255` (R61). -/
def State.opcodeByte (s : State) : Byte :=
  s.memRead (s.pc.setWidth 8)

/-- The byte behind it, for `pc <= 254` (R61, R63). -/
def State.argumentByte (s : State) : Byte :=
  s.memRead ((s.pc + 1).setWidth 8)

/-- The bytes of the instruction at the program counter, each read checked before it is made, or the cause and info of
the fault (R102). -/
def State.fetch (s : State) : Except (FaultCause × PcWord) (List Byte) :=
  if 256 ≤ s.pc.toNat then .error (.fetchOob, s.pc)
  else if (Kind.ofOpcode s.opcodeByte).needsArg then
    if 256 ≤ s.pc.toNat + 1 then .error (.argOob, s.pc + 1)
    else .ok [s.opcodeByte, s.argumentByte]
  else .ok [s.opcodeByte]

/-- The state with bytes stored where the next instruction is fetched. -/
def State.placeAtPc (s : State) (bytes : List Byte) : State :=
  { s with mem := s.mem.place s.pc.toNat bytes }

end Sys2Proof.Machine
end

