-- ==== Sys2Proof/Machine/Step.lean ====
section
/-! DEFINITION. One step of the core (40_fetch_execute.md R100). -/

namespace Sys2Proof.Machine

/-- Decode the fetched bytes and execute (R100 (c), R103). -/
def execBytes (bytes : List Byte) (s : State) : Host.Outcome State Fault Refusal :=
  match decode bytes with
  | .ok (i, _) => exec i s
  | .error _ => .fault .decoderInvariant

/-- `Step(s)` (R100): a state whose run is over is returned as it is (R101); a fetch out of bounds raises its fault
(R102); else the fetched instruction executes. -/
def step (s : State) : Host.Outcome State Fault Refusal :=
  if s.ended then .next s
  else
    match s.fetch with
    | .error (cause, info) => .next (s.raiseFault cause info)
    | .ok bytes => execBytes bytes s

/-- The state with a table word's instruction where `step` fetches next (log entry 2). -/
def State.withFetchWord (s : State) (nbits w : Nat) : State :=
  s.placeAtPc (tableWordBytes nbits w)

end Sys2Proof.Machine
end

