-- ==== Sys2Proof/Machine/Assembly.lean ====
section
/-! DEFINITION. The assembly notation (30_encoding.md R89, R90; log entry 12). It has no effect on the machine (D18).
Text is a list of characters. -/

namespace Sys2Proof

/-- The mnemonic of each kind (R86). -/
def Kind.mnemonic : Kind → List Char
  | .nop => ['N', 'O', 'P']
  | .sta => ['S', 'T', 'A']
  | .lda => ['L', 'D', 'A']
  | .add => ['A', 'D', 'D']
  | .or => ['O', 'R']
  | .and => ['A', 'N', 'D']
  | .not => ['N', 'O', 'T']
  | .sub => ['S', 'U', 'B']
  | .jmp => ['J', 'M', 'P']
  | .jn => ['J', 'N']
  | .jz => ['J', 'Z']
  | .jnz => ['J', 'N', 'Z']
  | .inp => ['I', 'N']
  | .out => ['O', 'U', 'T']
  | .ldi => ['L', 'D', 'I']
  | .hlt => ['H', 'L', 'T']

namespace Assembly

/-- The value of a digit in a base of at most 16; both letter cases count. -/
def digitValue (base : Nat) (c : Char) : Option Nat :=
  let n := c.toNat
  let v :=
    if 48 ≤ n ∧ n ≤ 57 then n - 48
    else if 65 ≤ n ∧ n ≤ 70 then n - 55
    else if 97 ≤ n ∧ n ≤ 102 then n - 87
    else base
  if v < base then some v else none

/-- The value of a digit string behind a value already read. -/
def digitsValue (base : Nat) : Nat → List Char → Option Nat
  | acc, [] => some acc
  | acc, c :: cs =>
    match digitValue base c with
    | some v => digitsValue base (acc * base + v) cs
    | none => none

/-- A digit string of at least one digit whose value is 0 to 255. -/
def byteOfDigits (base : Nat) : List Char → Option Byte
  | [] => none
  | c :: cs =>
    match digitsValue base 0 (c :: cs) with
    | some n => if n < 256 then some (BitVec.ofNat 8 n) else none
    | none => none

/-- A number 0 to 255: decimal, or hexadecimal behind `0x` (R89). -/
def parseNumber : List Char → Option Byte
  | '0' :: 'x' :: ds => byteOfDigits 16 ds
  | ds => byteOfDigits 10 ds

/-- The kind a mnemonic names. -/
def parseMnemonic (w : List Char) : Option Kind :=
  opcodeMap.find? fun k => decide (k.mnemonic = w)

/-- One instruction: its mnemonic and, for a Format B kind, one space and its argument (R89). -/
def parseInstr (cs : List Char) : Option Instr :=
  match parseMnemonic (cs.takeWhile (· != ' ')) with
  | none => none
  | some k =>
    match cs.dropWhile (· != ' ') with
    | [] => if k.needsArg then none else some (Instr.ofKind k 0)
    | _ :: number =>
      if k.needsArg then
        match parseNumber number with
        | some arg => some (Instr.ofKind k arg)
        | none => none
      else none

/-- A `;` or a line break stands between two instructions (R89). DESIGN CHOICE (log entry 12): R89 does not say which
characters make a line break; here it is the single line feed, so that a carriage return is no separator and text with
CR LF line ends is refused, and since a separator stands between two instructions, one behind the last is refused. -/
def isSeparator (c : Char) : Bool :=
  c == ';' || c == '\n'

/-- The pieces of a text between its separators. -/
def pieces : List Char → List (List Char)
  | [] => [[]]
  | c :: cs =>
    if isSeparator c then [] :: pieces cs
    else
      match pieces cs with
      | [] => [[c]]
      | p :: ps => (c :: p) :: ps

/-- The instructions of the pieces, blanks in front of each left out. -/
def parsePieces : List (List Char) → Option (List Instr)
  | [] => some []
  | p :: ps =>
    match parseInstr (p.dropWhile (· == ' ')), parsePieces ps with
    | some i, some is => some (i :: is)
    | _, _ => none

/-- The instructions of a text; the empty text has none. -/
def parse : List Char → Option (List Instr)
  | [] => some []
  | c :: cs => parsePieces (pieces (c :: cs))

/-- The image an assembler makes: canonical bytes, one instruction behind the other (R90). -/
def assemble (text : List Char) : Option (List Byte) :=
  match parse text with
  | some is => some (is.flatMap encode)
  | none => none

/-- The character of a decimal digit. -/
def decimalDigit (n : Nat) : Char :=
  Char.ofNat (48 + n)

/-- A byte in decimal, without leading zeros. -/
def decimal (b : Byte) : List Char :=
  let n := b.toNat
  if n < 10 then [decimalDigit n]
  else if n < 100 then [decimalDigit (n / 10), decimalDigit (n % 10)]
  else [decimalDigit (n / 100), decimalDigit (n / 10 % 10), decimalDigit (n % 10)]

/-- An instruction as text (R89). -/
def showInstr (i : Instr) : List Char :=
  match i.arg with
  | some arg => i.kind.mnemonic ++ ' ' :: decimal arg
  | none => i.kind.mnemonic

/-- Instructions as text, as the source writes them: `; ` between two (R89). -/
def showProgram : List Instr → List Char
  | [] => []
  | [i] => showInstr i
  | i :: j :: is => showInstr i ++ ';' :: ' ' :: showProgram (j :: is)

/-- The text of the instruction at the front of some bytes (R90). -/
def disassemble (bytes : List Byte) : Except DecodeError (List Char) :=
  match decode bytes with
  | .ok (i, _) => .ok (showInstr i)
  | .error e => .error e

end Assembly

end Sys2Proof
end

