-- ==== Sys2Proof/WellFormed.lean ====
section
/-! DEFINITION. What may be built: instructions (30_encoding.md R87) and blocks (10_state.md R39, R45). -/

namespace Sys2Proof

/-- Every argument value is legal for every kind (R87), and a `Byte` holds no other, so no term of `Instr` is
ill-formed. -/
def Instr.wellFormed : Instr → Bool
  | .nop => true
  | .sta _ => true
  | .lda _ => true
  | .add _ => true
  | .or _ => true
  | .and _ => true
  | .not => true
  | .sub _ => true
  | .jmp _ => true
  | .jn _ => true
  | .jz _ => true
  | .jnz _ => true
  | .inp _ => true
  | .out => true
  | .ldi _ => true
  | .hlt => true

/-- The image fits in memory (R39, R211, R212). -/
def Config.Build.imageFits (b : Config.Build) : Bool :=
  decide (b.image.length ≤ Config.memSize)

/-- `IN_PORTS` is in 1..256 (R39). -/
def Config.Build.portsFit (b : Config.Build) : Bool :=
  decide (1 ≤ b.ports.length) && decide (b.ports.length ≤ Config.maxInPorts)

/-- The parameters give a block (R39). -/
def Config.Build.wellFormed (b : Config.Build) : Bool :=
  b.imageFits && b.portsFit

end Sys2Proof
end

