-- ==== Sys2Proof/Machine/Reset.lean ====
section
/-! DEFINITION. Construction and reset (10_state.md R38, 70_reset_and_hazards.md R210-R213). -/

namespace Sys2Proof.Machine

/-- The image from address `a` on, in canonical form: its zero bytes are what unlisted cells hold anyway. -/
def Memory.ofImage : Nat → List Byte → Memory
  | _, [] => []
  | a, b :: bs =>
    if b = Memory.unlisted then Memory.ofImage (a + 1) bs else (a, b) :: Memory.ofImage (a + 1) bs

/-- What a reset edge leaves, whatever the core was doing (R210): every field at its value of R38, memory loaded again
from the image, the ports as the host drives them from this edge on (R38, R45). -/
def State.resetWith (image ports : List Byte) : State :=
  { State.reset with mem := Memory.ofImage 0 image, ports := ports }

/-- The state of a block after its first reset, or the refusal of an image longer than memory (R211) or of a number of
ports the spec does not admit (R39; log entry 13). -/
def construct (b : Config.Build) : Host.Outcome State Fault Refusal :=
  if b.imageFits then
    if b.portsFit then .next (State.resetWith b.image b.ports)
    else .refused .portCountOutOfRange
  else .refused .imageTooLong

end Sys2Proof.Machine
end

