-- ==== Sys2Proof/Machine/Clock.lean ====
section
/-! DEFINITION. The clocked block around the core: its inputs, its outputs and one rising edge of `clk` (10_state.md
R40-R45). The step in progress and `retire_o` are not architectural (R36), so they stand beside State, not in it. -/

namespace Sys2Proof.Machine

/-- What the inspection outputs show (R42), but for the memory port and `retire_o`. -/
structure Outputs where
  acc : Byte
  pc : PcWord
  halted : Bool
  fault : Bool
  faultCause : BitVec 2
  faultInfo : PcWord
  hist : Vector Byte Config.histDepth
  deriving DecidableEq, Repr

/-- `acc_o`, `pc_o`, `halted_o`, `fault_o`, `fault_cause_o`, `fault_info_o`, `hist_o`: views of the state (R42). -/
def State.outputs (s : State) : Outputs where
  acc := s.acc
  pc := s.pc
  halted := s.halted
  fault := s.fault.valid
  faultCause := s.fault.cause.code
  faultInfo := s.fault.info
  hist := s.hist

/-- `dbg_data_o = M[dbg_addr_i]`, with no side effect (R42). -/
def State.dbgData (s : State) (dbgAddr : Byte) : Byte :=
  s.memRead dbgAddr

/-- The block as built (R39), between two edges. -/
structure Block where
  /-- `PROGRAM_IMAGE`, fixed when the block is built. -/
  image : List Byte
  /-- The architectural state. -/
  core : State
  /-- The edges still to come before the step in progress commits, or none at a step boundary. -/
  pending : Option Nat
  /-- `retire_o` in the clock cycle after the last edge. -/
  retire : Bool
  deriving DecidableEq, Repr

/-- What one rising edge sees: `rst`, `en`, for a step that begins at it the number of edges that step takes, and the
values the host drives on `in_port`, port 0 first (R40, R41, R43, R218). -/
structure EdgeInputs where
  rst : Bool
  en : Bool
  cycles : Nat
  inPort : List Byte
  deriving DecidableEq, Repr

/-- The block after its first reset edge, or the refusal of its parameters (R211, R214, R215). -/
def Block.build (b : Config.Build) : Host.Outcome Block Fault Refusal :=
  match construct b with
  | .next s => .next { image := b.image, core := s, pending := none, retire := false }
  | .fault r => .fault r
  | .refused r => .refused r

/-- The last edge of a step: its writes commit together (R43). -/
def Block.commit (k : Block) : Host.Outcome Block Fault Refusal :=
  match step k.core with
  | .next t => .next { k with core := t, pending := none, retire := true }
  | .fault r => .fault r
  | .refused r => .refused r

/-- The reset edge (R43, R210): the host may drive other values on `in_port` from it on than in the run before (R45), but
not on another number of ports (R39). -/
def Block.reset (inPort : List Byte) (k : Block) : Host.Outcome Block Fault Refusal :=
  if inPort.length = k.core.ports.length then
    .next { k with core := State.resetWith k.image inPort, pending := none, retire := false }
  else .refused .portCountChanged

/-- An edge of a step that has `n` edges to come, this one among them (R43; log entry 10). The host holds `in_port` as
it was at the reset edge (R41, R45), else the model refuses (I10; log entry 5). -/
def Block.advance (inPort : List Byte) (n : Nat) (k : Block) : Host.Outcome Block Fault Refusal :=
  if inPort = k.core.ports then
    if n ≤ 1 then k.commit else .next { k with pending := some (n - 1), retire := false }
  else .refused .portsChangedDuringRun

/-- One rising edge of `clk` (R43): reset first; else a step in progress goes on; else a step begins if `en` is 1 and
the run is not over; else the state holds, whatever `in_port` shows, as nothing reads it. -/
def Block.edge (i : EdgeInputs) (k : Block) : Host.Outcome Block Fault Refusal :=
  if i.rst then k.reset i.inPort
  else
    match k.pending with
    | some n => k.advance i.inPort n
    | none => if i.en && !k.core.ended then k.advance i.inPort i.cycles else .next { k with retire := false }

/-- The outputs where they are specified, at step boundaries (R42; I7; log entry 10). -/
def Block.outputs (k : Block) : Option Outputs :=
  match k.pending with
  | none => some k.core.outputs
  | some _ => none

/-- A sequence of edges, with the number of `retire_o` pulses a host counts on the way (R197). -/
def Block.edges : List EdgeInputs → Block → Nat → Host.Outcome (Block × Nat) Fault Refusal
  | [], k, n => .next (k, n)
  | i :: is, k, n =>
    match k.edge i with
    | .next k' => Block.edges is k' (if k'.retire then n + 1 else n)
    | .fault r => .fault r
    | .refused r => .refused r

end Sys2Proof.Machine
end

