-- ==== Sys2Proof/Machine/Run.lean ====
section
/-! DEFINITION. The run under the host's step ceiling (40_fetch_execute.md R106, R107). The ceiling is an input of the
executor and no part of the machine. -/

namespace Sys2Proof.Machine

/-- How a bounded run ends (R106, R107). -/
inductive RunEnd where
  /-- The normal end: `halted = 1`. -/
  | halted (s : State)
  /-- The faulted end: the last valid state with the fault record. -/
  | faulted (s : State)
  /-- The ceiling was reached first; the host's outcome, distinct from a halt. -/
  | boundExceeded (s : State)
  deriving DecidableEq, Repr

/-- The end a state is, if it is one, else the bound's. -/
def RunEnd.ofState (s : State) : RunEnd :=
  if s.halted then .halted s else if s.fault.valid then .faulted s else .boundExceeded s

/-- Exactly `n` steps (R106). -/
def State.steps : Nat → State → Host.Outcome State Fault Refusal
  | 0, s => .next s
  | n + 1, s =>
    match step s with
    | .next t => State.steps n t
    | .fault r => .fault r
    | .refused r => .refused r

/-- At most `n` steps, ending at the first halted or faulted state. -/
def State.runBounded : Nat → State → Host.Outcome RunEnd Fault Refusal
  | 0, s => .next (RunEnd.ofState s)
  | n + 1, s =>
    if s.ended then .next (RunEnd.ofState s)
    else
      match step s with
      | .next t => State.runBounded n t
      | .fault r => .fault r
      | .refused r => .refused r

end Sys2Proof.Machine
end

