-- ==== Sys2Proof/Safety.lean ====
section
/-! DEFINITION. The terms the statements about the machine use: what a state presents to the next step, what two states
share, and the invariant of every run. -/

namespace Sys2Proof.Machine

/-- The next step executes a Format A instruction whose opcode byte has the high nibble `k` (R80, R102). -/
def State.presentsA (s : State) (k : Nat) : Prop :=
  s.ended = false ∧ s.pc.toNat ≤ 255 ∧ s.opcodeByte.toNat / 16 = k

/-- The next step executes a Format B instruction whose opcode byte has the high nibble `k` and whose argument byte is
`arg` (R80, R102). -/
def State.presentsB (s : State) (k : Nat) (arg : Byte) : Prop :=
  s.ended = false ∧ s.pc.toNat ≤ 254 ∧ s.opcodeByte.toNat / 16 = k ∧ s.argumentByte = arg

/-- Every cell of memory reads the same. -/
def SameMemory (s t : State) : Prop :=
  ∀ a : Byte, t.memRead a = s.memRead a

/-- Ports and history are the same. -/
def SameInOut (s t : State) : Prop :=
  t.ports = s.ports ∧ t.hist = s.hist

/-- The halted bit and the fault record are the same. -/
def SameStatus (s t : State) : Prop :=
  t.halted = s.halted ∧ t.fault = s.fault

/-- All but the program counter is the same. -/
def SameButPc (s t : State) : Prop :=
  t.acc = s.acc ∧ SameMemory s t ∧ SameInOut s t ∧ SameStatus s t

/-- All but the accumulator and the program counter is the same. -/
def SameButAccPc (s t : State) : Prop :=
  SameMemory s t ∧ SameInOut s t ∧ SameStatus s t

/-- All but the fault record is the same (R183). -/
def SameButFault (s t : State) : Prop :=
  t.acc = s.acc ∧ t.pc = s.pc ∧ SameMemory s t ∧ SameInOut s t ∧ t.halted = s.halted

/-- The kind of the opcode byte at the program counter. -/
def State.kindAtPc (s : State) : Kind :=
  Kind.ofOpcode s.opcodeByte

/-- The record fits the state it stopped: it names the check that failed there and the value that failed it (R35, R180,
R183). -/
def State.faultRecordFits (s : State) : Prop :=
  match s.fault.cause with
  | .none => s.fault.valid = false ∧ s.fault.info = 0
  | .fetchOob => s.fault.valid = true ∧ s.pc.toNat = 256 ∧ s.fault.info = s.pc
  | .argOob =>
    s.fault.valid = true ∧ s.pc.toNat = 255 ∧ s.fault.info.toNat = 256 ∧ s.kindAtPc.needsArg = true
  | .portOob =>
    s.fault.valid = true ∧ s.pc.toNat ≤ 254 ∧ s.kindAtPc = .inp ∧ s.fault.info = zext9 s.argumentByte ∧
      s.ports.length ≤ s.argumentByte.toNat

/-- OUT executed once for each of some values, each put into the accumulator in front of it (R161, R162). -/
def State.emitAll : List Byte → State → Host.Outcome State Fault Refusal
  | [], s => .next s
  | v :: vs, s =>
    match exec .out (s.setAcc v) with
    | .next t => State.emitAll vs t
    | .fault r => .fault r
    | .refused r => .refused r

/-- The invariant of every run. -/
structure State.Inv (s : State) : Prop where
  /-- Memory is in canonical form. -/
  memCanonical : s.mem.wf
  /-- The reachable values of the program counter (R27). -/
  pcReachable : s.pc.toNat ≤ 256
  /-- `IN_PORTS` is 1 to 256 (R39). -/
  portCount : 1 ≤ s.ports.length ∧ s.ports.length ≤ 256
  /-- The fault record is empty or fits. -/
  faultFits : s.faultRecordFits
  /-- `halted` and `fault.valid` never hold together (R186). -/
  notBoth : ¬(s.halted = true ∧ s.fault.valid = true)
  /-- A halted core stands right behind an HLT byte (R172). -/
  haltedBehindHlt :
    s.halted = true → 1 ≤ s.pc.toNat ∧ Kind.ofOpcode (s.mem.read (s.pc.toNat - 1)) = .hlt

end Sys2Proof.Machine
end

