-- ==== Sys2Proof/Certificates/Slice0/Obligations.lean ====
section
/-! DEFINITION. The statements for the provers. Each docstring names the rule or section of spec/ it rests on. -/

open Sys2Proof Sys2Proof.Machine

/-! ## Construction and reset -/

/-- R38: the state of a block after reset, for every image of at most 256 bytes and every port list of 1 to 256 bytes.
The zero history is the spec's decision D7. -/
def Obligations.ConstructionGivesTheResetState : Prop :=
  ∀ b : Config.Build, b.image.length ≤ 256 → 1 ≤ b.ports.length → b.ports.length ≤ 256 →
    ∃ t, construct b = .next t ∧
      t.acc = 0 ∧ t.pc = 0 ∧
      (∀ a : Byte, t.memRead a = if h : a.toNat < b.image.length then b.image[a.toNat] else 0) ∧
      (∀ (i : Nat) (h : i < Config.histDepth), t.hist[i] = 0) ∧
      t.halted = false ∧ t.fault = ⟨false, .none, 0⟩ ∧ t.ports = b.ports

/-- R211: an image over 256 bytes gives no block and no state. -/
def Obligations.OversizeImagesAreRefused : Prop :=
  ∀ b : Config.Build, 256 < b.image.length →
    construct b = .refused .imageTooLong ∧ Block.build b = .refused .imageTooLong

/-- R210: an edge with `rst = 1` gives every piece of state its reset value, whatever the block was doing; memory is
loaded again from the image. The ports are no state the reset rewrites (R210): from this edge on they are what the host
drives, `IN_PORTS` of them. `retire_o` is 0 behind it (R42). -/
def Obligations.ResetEdgeReloadsTheWholeState : Prop :=
  ∀ (i : EdgeInputs) (k : Block), i.rst = true → i.inPort.length = k.core.ports.length →
    ∃ k', k.edge i = .next k' ∧
      k'.image = k.image ∧ k'.pending = none ∧ k'.retire = false ∧
      k'.core.acc = 0 ∧ k'.core.pc = 0 ∧
      (∀ a : Byte, k'.core.memRead a = if h : a.toNat < k.image.length then k.image[a.toNat] else 0) ∧
      (∀ (n : Nat) (h : n < Config.histDepth), k'.core.hist[n] = 0) ∧
      k'.core.halted = false ∧ k'.core.fault = ⟨false, .none, 0⟩ ∧ k'.core.ports = i.inPort

/-- What the host may do with `in_port` (R39, R45): at a reset edge it may drive other values, on `IN_PORTS` ports, and
an IN after it reads them; on another number of ports the edge is refused; while a step begins or goes on, values other
than those of the reset edge are refused (I10). The two refusals are the model's way to say so, log entries 5 and 13. -/
def Obligations.HostMayChangeThePortsOnlyAtReset : Prop :=
  ∀ (i : EdgeInputs) (k : Block),
    (i.rst = true → i.inPort.length = k.core.ports.length →
      ∃ k', k.edge i = .next k' ∧ ∀ (port : Byte) (h : port.toNat < i.inPort.length),
        ∃ t, exec (.inp port) k'.core = .next t ∧ t.acc = i.inPort[port.toNat]) ∧
    (i.rst = true → i.inPort.length ≠ k.core.ports.length → k.edge i = .refused .portCountChanged) ∧
    (i.rst = false → i.inPort ≠ k.core.ports →
      k.pending ≠ none ∨ (i.en = true ∧ k.core.halted = false ∧ k.core.fault.valid = false) →
      k.edge i = .refused .portsChangedDuringRun)

/-- A well-formed build gives a block that keeps its image, holds the state of R38, stands at a step boundary and has
retired nothing (R39, R215). -/
def Obligations.WellFormedBuildsGiveTheirBlock : Prop :=
  ∀ b : Config.Build, b.image.length ≤ 256 → 1 ≤ b.ports.length → b.ports.length ≤ 256 →
    ∃ k, Block.build b = .next k ∧ construct b = .next k.core ∧
      k.image = b.image ∧ k.core.ports = b.ports ∧ k.pending = none ∧ k.retire = false

/-! ## Encoding -/

/-- Decoding the canonical bytes of a well-formed instruction gives it back, with the bytes after it (30_encoding.md
sections 1 to 4). -/
def Obligations.DecodeInvertsEncode : Prop :=
  ∀ (i : Instr) (rest : List Byte), i.wellFormed = true → decode (encode i ++ rest) = .ok (i, rest)

/-- The other direction: encoding what was decoded gives the same bytes with the ignored low nibble cleared
(30_encoding.md sections 1 and 7). -/
def Obligations.EncodeInvertsDecodeUpToTheLowNibble : Prop :=
  ∀ (op : Byte) (tail rest : List Byte) (i : Instr),
    decode (op :: tail) = .ok (i, rest) → encode i ++ rest = (op &&& 0xF0) :: tail

/-- R84: each kind is selected by exactly the 16 byte values `0xK0` to `0xKF`, and decoding cannot fail. -/
def Obligations.EveryOpcodeByteDecodes : Prop :=
  (∀ (op : Byte) (k : Kind),
    Kind.ofOpcode op = k ↔ 16 * k.nibble.toNat ≤ op.toNat ∧ op.toNat ≤ 16 * k.nibble.toNat + 15) ∧
  ∀ (op arg : Byte) (rest : List Byte), ∃ i r, decode (op :: arg :: rest) = .ok (i, r) ∧ i.kind = Kind.ofOpcode op

/-- R81: two opcode bytes with the same high nibble decode to the same instruction and execute identically. -/
def Obligations.LowNibbleIsIgnored : Prop :=
  ∀ (op op' : Byte) (rest : List Byte), op.toNat / 16 = op'.toNat / 16 →
    decode (op :: rest) = decode (op' :: rest) ∧
    ∀ s : State, execBytes (op :: rest) s = execBytes (op' :: rest) s

/-- R82: the length is 1 byte when `K` is 0, 6, 13 or 15 and 2 bytes otherwise; no later byte changes it. -/
def Obligations.LengthIsDecidedByTheKind : Prop :=
  ∀ (op arg : Byte) (rest : List Byte), ∃ i r, decode (op :: arg :: rest) = .ok (i, r) ∧
    (if op.toNat / 16 = 0 ∨ op.toNat / 16 = 6 ∨ op.toNat / 16 = 13 ∨ op.toNat / 16 = 15
      then r = arg :: rest else r = rest)

/-- R86: the opcode map, row by row, with the whole argument byte of the two-byte kinds and each row's mnemonic. -/
def Obligations.OpcodeMapRowByRow : Prop :=
  ∀ op arg : Byte,
    (op.toNat / 16 = 0x0 → decode [op, arg] = .ok (.nop, [arg]) ∧
      (Kind.ofOpcode op).mnemonic = ['N', 'O', 'P']) ∧
    (op.toNat / 16 = 0x1 → decode [op, arg] = .ok (.sta arg, []) ∧
      (Kind.ofOpcode op).mnemonic = ['S', 'T', 'A']) ∧
    (op.toNat / 16 = 0x2 → decode [op, arg] = .ok (.lda arg, []) ∧
      (Kind.ofOpcode op).mnemonic = ['L', 'D', 'A']) ∧
    (op.toNat / 16 = 0x3 → decode [op, arg] = .ok (.add arg, []) ∧
      (Kind.ofOpcode op).mnemonic = ['A', 'D', 'D']) ∧
    (op.toNat / 16 = 0x4 → decode [op, arg] = .ok (.or arg, []) ∧
      (Kind.ofOpcode op).mnemonic = ['O', 'R']) ∧
    (op.toNat / 16 = 0x5 → decode [op, arg] = .ok (.and arg, []) ∧
      (Kind.ofOpcode op).mnemonic = ['A', 'N', 'D']) ∧
    (op.toNat / 16 = 0x6 → decode [op, arg] = .ok (.not, [arg]) ∧
      (Kind.ofOpcode op).mnemonic = ['N', 'O', 'T']) ∧
    (op.toNat / 16 = 0x7 → decode [op, arg] = .ok (.sub arg, []) ∧
      (Kind.ofOpcode op).mnemonic = ['S', 'U', 'B']) ∧
    (op.toNat / 16 = 0x8 → decode [op, arg] = .ok (.jmp arg, []) ∧
      (Kind.ofOpcode op).mnemonic = ['J', 'M', 'P']) ∧
    (op.toNat / 16 = 0x9 → decode [op, arg] = .ok (.jn arg, []) ∧
      (Kind.ofOpcode op).mnemonic = ['J', 'N']) ∧
    (op.toNat / 16 = 0xA → decode [op, arg] = .ok (.jz arg, []) ∧
      (Kind.ofOpcode op).mnemonic = ['J', 'Z']) ∧
    (op.toNat / 16 = 0xB → decode [op, arg] = .ok (.jnz arg, []) ∧
      (Kind.ofOpcode op).mnemonic = ['J', 'N', 'Z']) ∧
    (op.toNat / 16 = 0xC → decode [op, arg] = .ok (.inp arg, []) ∧
      (Kind.ofOpcode op).mnemonic = ['I', 'N']) ∧
    (op.toNat / 16 = 0xD → decode [op, arg] = .ok (.out, [arg]) ∧
      (Kind.ofOpcode op).mnemonic = ['O', 'U', 'T']) ∧
    (op.toNat / 16 = 0xE → decode [op, arg] = .ok (.ldi arg, []) ∧
      (Kind.ofOpcode op).mnemonic = ['L', 'D', 'I']) ∧
    (op.toNat / 16 = 0xF → decode [op, arg] = .ok (.hlt, [arg]) ∧
      (Kind.ofOpcode op).mnemonic = ['H', 'L', 'T'])

/-- One word of each family, written out from R80 and R86 with a low nibble of the spec's decoder vectors
(95_test_vectors.md L2). -/
def Obligations.SpecWordsDecode : Prop :=
  decode [0b00101010, 0b00000100] = .ok (.lda 4, []) ∧
  decode [0b01111111, 0b10000001] = .ok (.sub 129, []) ∧
  decode [0b10011001, 0b00110000] = .ok (.jn 48, []) ∧
  decode [0b11000111, 0b11111111] = .ok (.inp 255, []) ∧
  decode [0b11011001] = .ok (.out, []) ∧
  decode [0b11111111] = .ok (.hlt, [])

/-- R90: the canonical opcode byte is `K << 4`; an assembler emits it, and a disassembler prints every byte of the
kind's range with the same mnemonic. -/
def Obligations.CanonicalEncodings : Prop :=
  ∀ i : Instr, ∃ op : Byte, encode i = op :: i.arg.toList ∧ op.toNat = 16 * i.kind.nibble.toNat ∧
    Assembly.assemble (Assembly.showInstr i) = some (encode i) ∧
    ∀ op' : Byte, op'.toNat / 16 = i.kind.nibble.toNat →
      Assembly.disassemble (op' :: i.arg.toList) = .ok (Assembly.showInstr i)

/-- The notation of R89, as the source writes programs, is read back as the instructions it was written from
(30_encoding.md section 7; that blanks behind a separator are left out is the model's reading, log entry 12). -/
def Obligations.AssemblyTextReadsBack : Prop :=
  ∀ p : List Instr, Assembly.parse (Assembly.showProgram p) = some p

/-! ## The step -/

/-- R100 (b) and (c): a step on a running state whose fetched bytes decode to `i` is `exec i`; `step` adds nothing
around it (40_fetch_execute.md section 1). -/
def Obligations.StepRunsTheDecodedInstruction : Prop :=
  ∀ (s : State) (i : Instr), s.ended = false → i.wellFormed = true →
    (s.pc.toNat ≤ 255 → decode [s.opcodeByte] = .ok (i, []) → step s = exec i s) ∧
    (s.pc.toNat ≤ 254 → decode [s.opcodeByte, s.argumentByte] = .ok (i, []) → step s = exec i s)

/-- R101: a step from a halted or a faulted state changes nothing. -/
def Obligations.EndedStatesHold : Prop :=
  ∀ s : State, s.halted = true ∨ s.fault.valid = true → step s = .next s

/-- R102: the opcode fetch needs `pc <= 255`; the argument fetch, made only for a two-byte kind, needs
`pc + 1 <= 255`; a one-byte kind at 255 executes and leaves `pc = 256`. -/
def Obligations.FetchesAreCheckedBeforeTheyAreMade : Prop :=
  ∀ s : State, s.ended = false →
    (256 ≤ s.pc.toNat → ∃ t, step s = .next t ∧ t.fault = ⟨true, .fetchOob, s.pc⟩ ∧ SameButFault s t) ∧
    (s.pc.toNat = 255 → s.kindAtPc.needsArg = true →
      ∃ t, step s = .next t ∧ t.fault = ⟨true, .argOob, 256⟩ ∧ SameButFault s t) ∧
    (s.pc.toNat = 255 → s.kindAtPc.needsArg = false →
      ∃ i t, decode [s.opcodeByte] = .ok (i, []) ∧ exec i s = .next t ∧ step s = .next t ∧
        t.pc.toNat = 256 ∧ t.fault = s.fault)

/-- R183: a step that raises a fault writes the fault record, all three fields of it, and nothing else. -/
def Obligations.FaultingStepWritesOnlyTheFaultRecord : Prop :=
  ∀ s t : State, s.fault.valid = false → step s = .next t → t.fault.valid = true →
    t.fault.cause ≠ .none ∧ t.ports = s.ports ∧
      t.acc = s.acc ∧ t.pc = s.pc ∧ t.mem = s.mem ∧ t.hist = s.hist ∧ t.halted = s.halted

/-- R180, with the order of R182: the three faults, their codes, conditions and recorded values, and no other. -/
def Obligations.ExactlyThreeFaults : Prop :=
  (FaultCause.code .none = 0 ∧ FaultCause.code .fetchOob = 1 ∧ FaultCause.code .argOob = 2 ∧
    FaultCause.code .portOob = 3) ∧
  ∀ s : State, s.ended = false → ∃ t, step s = .next t ∧
    (if 256 ≤ s.pc.toNat then
      t.fault = ⟨true, .fetchOob, s.pc⟩ ∧ (s.pc.toNat ≤ 256 → t.fault.info.toNat = 256)
    else if s.pc.toNat = 255 ∧ s.kindAtPc.needsArg = true then
      t.fault.valid = true ∧ t.fault.cause = .argOob ∧ t.fault.info.toNat = s.pc.toNat + 1
    else if s.kindAtPc = .inp ∧ s.ports.length ≤ s.argumentByte.toNat then
      t.fault.valid = true ∧ t.fault.cause = .portOob ∧ t.fault.info.toNat = s.argumentByte.toNat ∧
        s.ports.length ≠ 256
    else t.fault = s.fault)

/-- Every state has a successor: the model never stops (R105; decoding cannot fail, R84). -/
def Obligations.EveryStateHasASuccessor : Prop :=
  ∀ s : State, ∃ t, step s = .next t

/-- R25: the program counter after a step, for every kind, and after a fault. -/
def Obligations.ProgramCounterAfterAStep : Prop :=
  ∀ s t : State, s.ended = false → step s = .next t →
    (t.fault.valid = true → t.pc = s.pc) ∧
    (t.fault.valid = false →
      match s.kindAtPc with
      | .nop | .not | .out | .hlt => t.pc.toNat = s.pc.toNat + 1
      | .sta | .lda | .add | .or | .and | .sub | .inp | .ldi => t.pc.toNat = s.pc.toNat + 2
      | .jmp => t.pc.toNat = s.argumentByte.toNat
      | .jn => t.pc.toNat = if 64 ≤ s.acc.toNat then s.argumentByte.toNat else s.pc.toNat + 2
      | .jz => t.pc.toNat = if s.acc.toNat = 0 then s.argumentByte.toNat else s.pc.toNat + 2
      | .jnz => t.pc.toNat = if s.acc.toNat ≠ 0 then s.argumentByte.toNat else s.pc.toNat + 2)

/-! ## The instructions: result, completion, frame, and the bytes that make a step run them -/

/-- R120. -/
def Obligations.StaStoresTheAccumulator : Prop :=
  ∀ (addr : Byte) (s : State), s.pc.toNat ≤ 254 →
    ∃ t, exec (.sta addr) s = .next t ∧
      t.memRead addr = s.acc ∧ (∀ a, a ≠ addr → t.memRead a = s.memRead a) ∧
      t.pc.toNat = s.pc.toNat + 2 ∧ t.acc = s.acc ∧ SameInOut s t ∧ SameStatus s t ∧
      (s.presentsB 0x1 addr → step s = .next t)

/-- R121. -/
def Obligations.LdaLoadsTheAddressedByte : Prop :=
  ∀ (addr : Byte) (s : State), s.pc.toNat ≤ 254 →
    ∃ t, exec (.lda addr) s = .next t ∧
      t.acc = s.memRead addr ∧ t.pc.toNat = s.pc.toNat + 2 ∧ SameButAccPc s t ∧
      (s.presentsB 0x2 addr → step s = .next t)

/-- R122. -/
def Obligations.LdiLoadsItsArgument : Prop :=
  ∀ (val : Byte) (s : State), s.pc.toNat ≤ 254 →
    ∃ t, exec (.ldi val) s = .next t ∧
      t.acc = val ∧ t.pc.toNat = s.pc.toNat + 2 ∧ SameButAccPc s t ∧
      (s.presentsB 0xE val → step s = .next t)

/-- R130 and R134, with the wrap of R8. -/
def Obligations.AddAndSubWrapModulo256 : Prop :=
  ∀ (addr : Byte) (s : State), s.pc.toNat ≤ 254 →
    (∃ t, exec (.add addr) s = .next t ∧
      t.acc.toNat = (s.acc.toNat + (s.memRead addr).toNat) % 256 ∧
      t.pc.toNat = s.pc.toNat + 2 ∧ SameButAccPc s t ∧ (s.presentsB 0x3 addr → step s = .next t)) ∧
    (∃ t, exec (.sub addr) s = .next t ∧
      (t.acc.toNat : Int) = ((s.acc.toNat : Int) - ((s.memRead addr).toNat : Int) + 256) % 256 ∧
      t.pc.toNat = s.pc.toNat + 2 ∧ SameButAccPc s t ∧ (s.presentsB 0x7 addr → step s = .next t))

/-- R131 and R132, bit by bit. -/
def Obligations.OrAndAndCombineBits : Prop :=
  ∀ (addr : Byte) (s : State), s.pc.toNat ≤ 254 →
    (∃ t, exec (.or addr) s = .next t ∧
      (∀ n, n < 8 → t.acc.getLsbD n = (s.acc.getLsbD n || (s.memRead addr).getLsbD n)) ∧
      t.pc.toNat = s.pc.toNat + 2 ∧ SameButAccPc s t ∧ (s.presentsB 0x4 addr → step s = .next t)) ∧
    (∃ t, exec (.and addr) s = .next t ∧
      (∀ n, n < 8 → t.acc.getLsbD n = (s.acc.getLsbD n && (s.memRead addr).getLsbD n)) ∧
      t.pc.toNat = s.pc.toNat + 2 ∧ SameButAccPc s t ∧ (s.presentsB 0x5 addr → step s = .next t))

/-- R133. -/
def Obligations.NotComplementsTheAccumulator : Prop :=
  ∀ s : State, s.pc.toNat ≤ 255 →
    ∃ t, exec .not s = .next t ∧
      t.acc.toNat = 255 - s.acc.toNat ∧ t.pc.toNat = s.pc.toNat + 1 ∧ SameButAccPc s t ∧
      (s.presentsA 0x6 → step s = .next t)

/-- R146. -/
def Obligations.JmpGoesToItsTarget : Prop :=
  ∀ (target : Byte) (s : State),
    ∃ t, exec (.jmp target) s = .next t ∧
      t.pc.toNat = target.toNat ∧ SameButPc s t ∧ (s.presentsB 0x8 target → step s = .next t)

/-- R147, R149, R151. The JN threshold is the table's `acc >= 64` (conflict C1, log entry 8). -/
def Obligations.ConditionalJumpsTestTheAccumulator : Prop :=
  ∀ (target : Byte) (s : State), s.pc.toNat ≤ 254 →
    (∃ t, exec (.jn target) s = .next t ∧
      t.pc.toNat = (if 64 ≤ s.acc.toNat then target.toNat else s.pc.toNat + 2) ∧ SameButPc s t ∧
      (s.presentsB 0x9 target → step s = .next t)) ∧
    (∃ t, exec (.jz target) s = .next t ∧
      t.pc.toNat = (if s.acc.toNat = 0 then target.toNat else s.pc.toNat + 2) ∧ SameButPc s t ∧
      (s.presentsB 0xA target → step s = .next t)) ∧
    (∃ t, exec (.jnz target) s = .next t ∧
      t.pc.toNat = (if s.acc.toNat ≠ 0 then target.toNat else s.pc.toNat + 2) ∧ SameButPc s t ∧
      (s.presentsB 0xB target → step s = .next t))

/-- Which of the three conditional jumps to a target other than the next instruction are taken together (R148, R152,
conflict C2). -/
def Obligations.BranchDecisionsRelate : Prop :=
  ∀ (target : Byte) (s : State), s.pc.toNat ≤ 254 → target.toNat ≠ s.pc.toNat + 2 →
    ∃ jn jz jnz, exec (.jn target) s = .next jn ∧ exec (.jz target) s = .next jz ∧ exec (.jnz target) s = .next jnz ∧
      (jz.pc.toNat = target.toNat ↔ jnz.pc.toNat ≠ target.toNat) ∧
      (jn.pc.toNat = target.toNat → jz.pc.toNat ≠ target.toNat) ∧
      (jn.pc.toNat = target.toNat → jnz.pc.toNat = target.toNat)

/-- R160: both cases of the port index; with 256 ports the second never comes. -/
def Obligations.InLoadsThePortOrFaults : Prop :=
  ∀ (port : Byte) (s : State),
    (∀ h : port.toNat < s.ports.length, s.pc.toNat ≤ 254 →
      ∃ t, exec (.inp port) s = .next t ∧
        t.acc = s.ports[port.toNat] ∧ t.pc.toNat = s.pc.toNat + 2 ∧ SameButAccPc s t ∧
        (s.presentsB 0xC port → step s = .next t)) ∧
    (s.ports.length ≤ port.toNat →
      ∃ t, exec (.inp port) s = .next t ∧ t.fault.valid = true ∧ t.fault.cause = .portOob ∧
        t.fault.info.toNat = port.toNat ∧ SameButFault s t ∧ (s.presentsB 0xC port → step s = .next t)) ∧
    (s.ports.length = 256 → port.toNat < s.ports.length)

/-- R161. -/
def Obligations.OutEmitsTheAccumulator : Prop :=
  ∀ s : State, s.pc.toNat ≤ 255 →
    ∃ t, exec .out s = .next t ∧
      t.hist[0] = s.acc ∧
      (∀ (n : Nat) (h : n + 1 < Config.histDepth), t.hist[n + 1] = s.hist[n]'(Nat.lt_of_succ_lt h)) ∧
      t.pc.toNat = s.pc.toNat + 1 ∧ t.acc = s.acc ∧ t.ports = s.ports ∧ SameMemory s t ∧ SameStatus s t ∧
      (s.presentsA 0xD → step s = .next t)

/-- R162: HistPush shifts by one slot and puts its value in front; after OUTs have emitted the values `vs`, from any
state whose history is all zeros, as reset leaves it, slot `i` holds the value emitted `i` values before the last, or 0
where fewer have been emitted. -/
def Obligations.HistoryHoldsTheLastFortyValues : Prop :=
  (∀ (v : Byte) (h : Vector Byte Config.histDepth) (i : Nat) (hi : i < Config.histDepth),
    (History.push v h)[i] = if i = 0 then v else h[i - 1]) ∧
  ∀ (vs : List Byte) (s : State), (∀ (i : Nat) (hi : i < Config.histDepth), s.hist[i] = 0) →
    ∃ t, s.emitAll vs = .next t ∧
      ∀ (i : Nat) (hi : i < Config.histDepth),
        t.hist[i] = if h : i < vs.length then vs[vs.length - 1 - i] else 0

/-- R170. -/
def Obligations.NopOnlyAdvances : Prop :=
  ∀ s : State, s.pc.toNat ≤ 255 →
    ∃ t, exec .nop s = .next t ∧ t.pc.toNat = s.pc.toNat + 1 ∧ SameButPc s t ∧
      (s.presentsA 0x0 → step s = .next t)

/-- R172: HLT halts behind itself, and every later step is a no-op. -/
def Obligations.HltHaltsBehindItself : Prop :=
  ∀ s : State, s.pc.toNat ≤ 255 →
    ∃ t, exec .hlt s = .next t ∧ t.halted = true ∧ t.pc.toNat = s.pc.toNat + 1 ∧
      t.acc = s.acc ∧ SameMemory s t ∧ SameInOut s t ∧ t.fault = s.fault ∧
      (s.presentsA 0xF → step s = .next t) ∧ (∀ n, t.steps n = .next t)

/-- Two NOTs give the accumulator back, and so does a SUB after an ADD of the same cell (R136). -/
def Obligations.NotAndAddAreUndone : Prop :=
  ∀ s : State,
    (∃ t u, exec .not s = .next t ∧ exec .not t = .next u ∧ u.acc = s.acc) ∧
    ∀ addr : Byte, ∃ t u, exec (.add addr) s = .next t ∧ exec (.sub addr) t = .next u ∧ u.acc = s.acc

/-! ## Whole-machine rules -/

/-- Which kinds a step may change each piece of state under (R21, R29, R30, R31, R33, R35). -/
def Obligations.OnlyItsWritersChangeAPieceOfState : Prop :=
  ∀ s t : State, step s = .next t →
    t.ports = s.ports ∧
    (t.acc ≠ s.acc → s.kindAtPc ∈ [Kind.lda, .add, .or, .and, .not, .sub, .inp, .ldi]) ∧
    (∀ a, t.memRead a ≠ s.memRead a → s.kindAtPc = .sta ∧ a = s.argumentByte) ∧
    (t.hist ≠ s.hist → s.kindAtPc = .out) ∧
    (t.halted ≠ s.halted → s.kindAtPc = .hlt ∧ t.halted = true) ∧
    (t.fault ≠ s.fault → s.fault.valid = false ∧ t.fault.valid = true)

/-- The kinds that do not read the accumulator: the step they make is the same whatever it holds (R21). -/
def Obligations.AccumulatorReachesOnlyItsReaders : Prop :=
  ∀ (s t : State) (v : Byte), step s = .next t → s.ended = false → t.fault.valid = false →
    (s.kindAtPc ∈ [Kind.lda, .ldi, .inp] → step (s.setAcc v) = .next t) ∧
    (s.kindAtPc ∈ [Kind.nop, .jmp, .hlt] → step (s.setAcc v) = .next (t.setAcc v))

/-- No instruction reads the history: two states that differ only in it step to states that differ only in it (R31). -/
def Obligations.HistoryIsNeverRead : Prop :=
  ∀ (s t : State) (h : Vector Byte Config.histDepth), step s = .next t →
    ∃ h', step { s with hist := h } = .next { t with hist := h' }

/-- Only IN reads the ports: a step of any other kind is the same whatever they hold (R30). -/
def Obligations.PortsReachOnlyIn : Prop :=
  ∀ (s t : State) (ps : List Byte), step s = .next t → s.kindAtPc ≠ .inp →
    step { s with ports := ps } = .next { t with ports := ps }

/-- After any stores, a read gives the byte of the latest store to its address, or what was there before them
(20_memory.md R71). -/
def Obligations.ReadGivesTheLatestStore : Prop :=
  ∀ (stores : List (Byte × Byte)) (s : State) (a : Byte),
    (stores.foldl (fun u w => u.memWrite w.1 w.2) s).memRead a =
      match stores.reverse.find? (fun w => w.1 == a) with
      | some w => w.2
      | none => s.memRead a

/-- The model's memory form is canonical: two memories in that form that read the same are the same data (the form is
the model's choice, log entry 3; 20_memory.md section 1). -/
def Obligations.MemoryFormIsCanonical : Prop :=
  ∀ m m' : Memory, m.wf → m'.wf → (∀ a, a < 256 → m.read a = m'.read a) → m = m'

/-- A store by STA is fetched by the very next step, as opcode or as argument byte; the step that stores has used the
old bytes (20_memory.md R74). -/
def Obligations.StoreIsSeenByTheNextFetch : Prop :=
  ∀ (s : State) (addr : Byte), s.presentsB 0x1 addr →
    ∃ t, step s = .next t ∧ t.memRead addr = s.acc ∧ t.pc.toNat = s.pc.toNat + 2 ∧
      (addr.toNat = s.pc.toNat + 2 →
        t.opcodeByte = s.acc ∧
        (∀ i, decode [s.acc] = .ok (i, []) → step t = exec i t) ∧
        (s.pc.toNat ≤ 252 → ∀ i, decode [s.acc, s.memRead (s.pc.setWidth 8 + 3)] = .ok (i, []) → step t = exec i t) ∧
        (s.pc.toNat = 253 → (Kind.ofOpcode s.acc).needsArg = true → step t = .next (t.raiseFault .argOob 256))) ∧
      (addr.toNat = s.pc.toNat + 3 →
        t.argumentByte = s.acc ∧
        ∀ i, decode [s.memRead (s.pc.setWidth 8 + 2), s.acc] = .ok (i, []) → step t = exec i t)

/-- The invariant of every run is kept by every step (R27, R35, R172, R186). -/
def Obligations.StepKeepsTheInvariant : Prop :=
  ∀ s t : State, s.Inv → step s = .next t → t.Inv

/-- The invariant holds at State.reset. It holds there of the model's choice of 256 zero ports (log entry 1) because it
holds of any 1 to 256 ports. -/
def Obligations.InvariantHoldsAtReset : Prop :=
  State.reset.Inv

/-- The invariant holds of the state of every block that can be built. -/
def Obligations.InvariantHoldsAfterConstruction : Prop :=
  ∀ (b : Config.Build) (s : State), construct b = .next s → s.Inv

/-! ## The run -/

/-- A state whose run is over is where it stays, after any number of steps (R184, R196). -/
def Obligations.EndedRunsStayWhereTheyAre : Prop :=
  ∀ (n : Nat) (s : State), s.ended = true →
    s.steps n = .next s ∧ s.runBounded n = .next (RunEnd.ofState s)

/-- R108: from a running state whose memory holds only NOP bytes from `pc` on, `256 - pc` steps lead to `pc = 256` with
nothing else changed, and one more records FETCH_OOB with info 256. -/
def Obligations.NopsRunOffTheEndOfMemory : Prop :=
  ∀ s : State, s.ended = false → s.pc.toNat ≤ 256 →
    (∀ a : Byte, s.pc.toNat ≤ a.toNat → (s.memRead a).toNat / 16 = 0) →
    s.steps (256 - s.pc.toNat) = .next { s with pc := 256 } ∧
    s.steps (256 - s.pc.toNat + 1) = .next { s with pc := 256, fault := ⟨true, .fetchOob, 256⟩ }

/-- A JMP to its own address is a hang: the state never changes, and every bounded run ends at its bound (R106,
R146). -/
def Obligations.JumpToItselfHangs : Prop :=
  ∀ (n : Nat) (s : State) (target : Byte), s.presentsB 0x8 target → target.toNat = s.pc.toNat →
    s.steps n = .next s ∧ s.runBounded n = .next (.boundExceeded s)

/-- A bounded run ends normally, faulted or at its bound, as the state after that many steps is halted, faulted or
neither (R106, R107). -/
def Obligations.BoundedRunTellsItsEnd : Prop :=
  ∀ (n : Nat) (s : State), ∃ t, s.steps n = .next t ∧
    (t.halted = true → s.runBounded n = .next (.halted t)) ∧
    (t.halted = false → t.fault.valid = true → s.runBounded n = .next (.faulted t)) ∧
    (t.halted = false → t.fault.valid = false → s.runBounded n = .next (.boundExceeded t))

/-! ## The clocked block -/

/-- The inspection outputs show the state at step boundaries; between the edges of a step the model gives none (R42,
I7, log entry 10). -/
def Obligations.OutputsShowTheStateAtStepBoundaries : Prop :=
  ∀ k : Block,
    (k.pending = none → ∃ o, k.outputs = some o ∧ o.acc = k.core.acc ∧ o.pc = k.core.pc ∧ o.halted = k.core.halted ∧
      o.fault = k.core.fault.valid ∧ o.faultCause.toNat = (match k.core.fault.cause with
        | .none => 0
        | .fetchOob => 1
        | .argOob => 2
        | .portOob => 3) ∧
      o.faultInfo = k.core.fault.info ∧ o.hist = k.core.hist ∧ ∀ a, k.core.dbgData a = k.core.memRead a) ∧
    (∀ n, k.pending = some n → k.outputs = none)

/-- R43, edge by edge: reset, a step in progress, a step that begins, and the hold; the block's image never changes (R39).
That a step of `n` edges commits at the `n`-th edge counted from the one it begins at is the model's reading (log entry
10). The host drives `in_port` as R45 asks; where it does not, HostMayChangeThePortsOnlyAtReset says what happens. -/
def Obligations.ClockEdgeResetsAdvancesBeginsOrHolds : Prop :=
  ∀ (i : EdgeInputs) (k : Block),
    (i.rst = true → i.inPort.length = k.core.ports.length →
      ∃ k', k.edge i = .next k' ∧ k'.image = k.image ∧ k'.core = State.resetWith k.image i.inPort ∧
        k'.pending = none ∧ k'.retire = false) ∧
    (i.rst = false → i.inPort = k.core.ports → ∀ n, (k.pending = some n ∨
        (k.pending = none ∧ i.en = true ∧ k.core.halted = false ∧ k.core.fault.valid = false ∧ i.cycles = n)) →
      (n ≤ 1 → ∃ k', k.edge i = .next k' ∧ k'.image = k.image ∧ step k.core = .next k'.core ∧ k'.pending = none ∧
        k'.retire = true) ∧
      (1 < n → ∃ k', k.edge i = .next k' ∧ k'.image = k.image ∧ k'.core = k.core ∧ k'.pending = some (n - 1) ∧
        k'.retire = false)) ∧
    (i.rst = false → k.pending = none →
      i.en = false ∨ k.core.halted = true ∨ k.core.fault.valid = true →
      ∃ k', k.edge i = .next k' ∧ k'.image = k.image ∧ k'.core = k.core ∧ k'.pending = none ∧ k'.retire = false)

/-- The clocked block refines the step: over any edges without a reset, whatever `en` and the cycles per step are, the
core is where as many steps lead as `retire_o` pulses were counted (R44, R197, R218), unless the host changed `in_port`
on the way and the edges were refused for it (R45, I10). -/
def Obligations.ClockingAddsNothingToTheSteps : Prop :=
  ∀ (is : List EdgeInputs) (k : Block) (n : Nat), (∀ i ∈ is, i.rst = false) →
    (∃ k' m, k.edges is n = .next (k', n + m) ∧ k'.image = k.image ∧ k.core.steps m = .next k'.core ∧
      m ≤ is.length) ∨
    (k.edges is n = .refused .portsChangedDuringRun ∧ ∃ i ∈ is, i.inPort ≠ k.core.ports)

/-- Every edge, resets and changed port values among them, keeps the invariant of the core, the image the block was
built with and the number of its ports (R39, R210). -/
def Obligations.EdgesKeepTheBlockWellFormed : Prop :=
  ∀ (i : EdgeInputs) (k k' : Block), k.core.Inv → k.image.length ≤ 256 → k.edge i = .next k' →
    k'.core.Inv ∧ k'.image = k.image ∧ k'.core.ports.length = k.core.ports.length
end

