-- ==== Sys2Proof/Laws/Clock.lean ====
section
/-! SUPPORT. What each part of a clock edge answers, case by case (R43). -/

namespace Sys2Proof.Machine

variable {k : Block} {i : EdgeInputs}

theorem Block.commit_of_step {t : State} (h : step k.core = .next t) :
    k.commit = .next { k with core := t, pending := none, retire := true } := by
  simp [Block.commit, h]

theorem Block.advance_last {n : Nat} (hn : n ≤ 1) : k.advance k.core.ports n = k.commit := by
  simp [Block.advance, hn]

theorem Block.advance_count {n : Nat} (hn : 1 < n) :
    k.advance k.core.ports n = .next { k with pending := some (n - 1), retire := false } := by
  simp [Block.advance, Nat.not_le.2 hn]

theorem Block.advance_changed {inPort : List Byte} (h : inPort ≠ k.core.ports) (n : Nat) :
    k.advance inPort n = .refused .portsChangedDuringRun := by
  simp [Block.advance, h]

theorem Block.edge_reset (h : i.rst = true) (hl : i.inPort.length = k.core.ports.length) :
    k.edge i = .next { k with core := State.resetWith k.image i.inPort, pending := none, retire := false } := by
  simp [Block.edge, Block.reset, h, hl]

theorem Block.edge_reset_count (h : i.rst = true) (hl : i.inPort.length ≠ k.core.ports.length) :
    k.edge i = .refused .portCountChanged := by
  simp [Block.edge, Block.reset, h, hl]

theorem Block.edge_pending {n : Nat} (h : i.rst = false) (hp : k.pending = some n) :
    k.edge i = k.advance i.inPort n := by
  simp [Block.edge, h, hp]

theorem Block.edge_begin (h : i.rst = false) (hp : k.pending = none) (he : i.en = true) (hr : k.core.ended = false) :
    k.edge i = k.advance i.inPort i.cycles := by
  simp [Block.edge, h, hp, he, hr]

theorem Block.edge_hold (h : i.rst = false) (hp : k.pending = none) (he : i.en = false ∨ k.core.ended = true) :
    k.edge i = .next { k with retire := false } := by
  rcases he with he | he <;> simp [Block.edge, h, hp, he]

end Sys2Proof.Machine
end

