-- ==== Sys2Proof/Laws/State.lean ====
section
/-! SUPPORT. What each named update of the state does to each field. -/

namespace Sys2Proof.Machine

variable (s : State)

@[simp] theorem State.setAcc_acc (v : Byte) : (s.setAcc v).acc = v := rfl
@[simp] theorem State.setAcc_pc (v : Byte) : (s.setAcc v).pc = s.pc := rfl
@[simp] theorem State.setAcc_mem (v : Byte) : (s.setAcc v).mem = s.mem := rfl
@[simp] theorem State.setAcc_ports (v : Byte) : (s.setAcc v).ports = s.ports := rfl
@[simp] theorem State.setAcc_hist (v : Byte) : (s.setAcc v).hist = s.hist := rfl
@[simp] theorem State.setAcc_halted (v : Byte) : (s.setAcc v).halted = s.halted := rfl
@[simp] theorem State.setAcc_fault (v : Byte) : (s.setAcc v).fault = s.fault := rfl

@[simp] theorem State.setPc_acc (target : PcWord) : (s.setPc target).acc = s.acc := rfl
@[simp] theorem State.setPc_pc (target : PcWord) : (s.setPc target).pc = target := rfl
@[simp] theorem State.setPc_mem (target : PcWord) : (s.setPc target).mem = s.mem := rfl
@[simp] theorem State.setPc_ports (target : PcWord) : (s.setPc target).ports = s.ports := rfl
@[simp] theorem State.setPc_hist (target : PcWord) : (s.setPc target).hist = s.hist := rfl
@[simp] theorem State.setPc_halted (target : PcWord) : (s.setPc target).halted = s.halted := rfl
@[simp] theorem State.setPc_fault (target : PcWord) : (s.setPc target).fault = s.fault := rfl

@[simp] theorem State.advance_acc (n : PcWord) : (s.advance n).acc = s.acc := rfl
@[simp] theorem State.advance_pc (n : PcWord) : (s.advance n).pc = s.pc + n := rfl
@[simp] theorem State.advance_mem (n : PcWord) : (s.advance n).mem = s.mem := rfl
@[simp] theorem State.advance_ports (n : PcWord) : (s.advance n).ports = s.ports := rfl
@[simp] theorem State.advance_hist (n : PcWord) : (s.advance n).hist = s.hist := rfl
@[simp] theorem State.advance_halted (n : PcWord) : (s.advance n).halted = s.halted := rfl
@[simp] theorem State.advance_fault (n : PcWord) : (s.advance n).fault = s.fault := rfl

@[simp] theorem State.memWrite_acc (a v : Byte) : (s.memWrite a v).acc = s.acc := rfl
@[simp] theorem State.memWrite_pc (a v : Byte) : (s.memWrite a v).pc = s.pc := rfl
@[simp] theorem State.memWrite_mem (a v : Byte) : (s.memWrite a v).mem = s.mem.write a.toNat v := rfl
@[simp] theorem State.memWrite_ports (a v : Byte) : (s.memWrite a v).ports = s.ports := rfl
@[simp] theorem State.memWrite_hist (a v : Byte) : (s.memWrite a v).hist = s.hist := rfl
@[simp] theorem State.memWrite_halted (a v : Byte) : (s.memWrite a v).halted = s.halted := rfl
@[simp] theorem State.memWrite_fault (a v : Byte) : (s.memWrite a v).fault = s.fault := rfl

@[simp] theorem State.histPush_acc (v : Byte) : (s.histPush v).acc = s.acc := rfl
@[simp] theorem State.histPush_pc (v : Byte) : (s.histPush v).pc = s.pc := rfl
@[simp] theorem State.histPush_mem (v : Byte) : (s.histPush v).mem = s.mem := rfl
@[simp] theorem State.histPush_ports (v : Byte) : (s.histPush v).ports = s.ports := rfl
@[simp] theorem State.histPush_hist (v : Byte) : (s.histPush v).hist = History.push v s.hist := rfl
@[simp] theorem State.histPush_halted (v : Byte) : (s.histPush v).halted = s.halted := rfl
@[simp] theorem State.histPush_fault (v : Byte) : (s.histPush v).fault = s.fault := rfl

@[simp] theorem State.halt_acc : s.halt.acc = s.acc := rfl
@[simp] theorem State.halt_pc : s.halt.pc = s.pc := rfl
@[simp] theorem State.halt_mem : s.halt.mem = s.mem := rfl
@[simp] theorem State.halt_ports : s.halt.ports = s.ports := rfl
@[simp] theorem State.halt_hist : s.halt.hist = s.hist := rfl
@[simp] theorem State.halt_halted : s.halt.halted = true := rfl
@[simp] theorem State.halt_fault : s.halt.fault = s.fault := rfl

@[simp] theorem State.raiseFault_acc (cause : FaultCause) (info : PcWord) :
    (s.raiseFault cause info).acc = s.acc := rfl
@[simp] theorem State.raiseFault_pc (cause : FaultCause) (info : PcWord) : (s.raiseFault cause info).pc = s.pc := rfl
@[simp] theorem State.raiseFault_mem (cause : FaultCause) (info : PcWord) :
    (s.raiseFault cause info).mem = s.mem := rfl
@[simp] theorem State.raiseFault_ports (cause : FaultCause) (info : PcWord) :
    (s.raiseFault cause info).ports = s.ports := rfl
@[simp] theorem State.raiseFault_hist (cause : FaultCause) (info : PcWord) :
    (s.raiseFault cause info).hist = s.hist := rfl
@[simp] theorem State.raiseFault_halted (cause : FaultCause) (info : PcWord) :
    (s.raiseFault cause info).halted = s.halted := rfl
@[simp] theorem State.raiseFault_fault (cause : FaultCause) (info : PcWord) :
    (s.raiseFault cause info).fault = ⟨true, cause, info⟩ := rfl

@[simp] theorem State.placeAtPc_acc (bytes : List Byte) : (s.placeAtPc bytes).acc = s.acc := rfl
@[simp] theorem State.placeAtPc_pc (bytes : List Byte) : (s.placeAtPc bytes).pc = s.pc := rfl
@[simp] theorem State.placeAtPc_mem (bytes : List Byte) :
    (s.placeAtPc bytes).mem = s.mem.place s.pc.toNat bytes := rfl
@[simp] theorem State.placeAtPc_ports (bytes : List Byte) : (s.placeAtPc bytes).ports = s.ports := rfl
@[simp] theorem State.placeAtPc_hist (bytes : List Byte) : (s.placeAtPc bytes).hist = s.hist := rfl
@[simp] theorem State.placeAtPc_halted (bytes : List Byte) : (s.placeAtPc bytes).halted = s.halted := rfl
@[simp] theorem State.placeAtPc_fault (bytes : List Byte) : (s.placeAtPc bytes).fault = s.fault := rfl

@[simp] theorem State.resetWith_acc (image ports : List Byte) : (State.resetWith image ports).acc = 0 := rfl
@[simp] theorem State.resetWith_pc (image ports : List Byte) : (State.resetWith image ports).pc = 0 := rfl
@[simp] theorem State.resetWith_mem (image ports : List Byte) : (State.resetWith image ports).mem = Memory.ofImage 0 image := rfl
@[simp] theorem State.resetWith_ports (image ports : List Byte) : (State.resetWith image ports).ports = ports := rfl
@[simp] theorem State.resetWith_hist (image ports : List Byte) :
    (State.resetWith image ports).hist = Vector.replicate Config.histDepth 0 := rfl
@[simp] theorem State.resetWith_halted (image ports : List Byte) : (State.resetWith image ports).halted = false := rfl
@[simp] theorem State.resetWith_fault (image ports : List Byte) : (State.resetWith image ports).fault = ⟨false, .none, 0⟩ := rfl

@[simp] theorem State.reset_acc : State.reset.acc = 0 := rfl
@[simp] theorem State.reset_pc : State.reset.pc = 0 := rfl
@[simp] theorem State.reset_mem : State.reset.mem = [] := rfl
@[simp] theorem State.reset_ports_length : State.reset.ports.length = 256 := List.length_replicate
@[simp] theorem State.reset_hist : State.reset.hist = Vector.replicate Config.histDepth 0 := rfl
@[simp] theorem State.reset_halted : State.reset.halted = false := rfl
@[simp] theorem State.reset_fault : State.reset.fault = ⟨false, .none, 0⟩ := rfl

@[simp] theorem branch_acc (taken : Bool) (target : Byte) : (branch taken target s).acc = s.acc := by
  cases taken <;> rfl
@[simp] theorem branch_mem (taken : Bool) (target : Byte) : (branch taken target s).mem = s.mem := by
  cases taken <;> rfl
@[simp] theorem branch_ports (taken : Bool) (target : Byte) : (branch taken target s).ports = s.ports := by
  cases taken <;> rfl
@[simp] theorem branch_hist (taken : Bool) (target : Byte) : (branch taken target s).hist = s.hist := by
  cases taken <;> rfl
@[simp] theorem branch_halted (taken : Bool) (target : Byte) : (branch taken target s).halted = s.halted := by
  cases taken <;> rfl
@[simp] theorem branch_fault (taken : Bool) (target : Byte) : (branch taken target s).fault = s.fault := by
  cases taken <;> rfl

end Sys2Proof.Machine
end

