-- ==== Sys2Proof/Laws/Fetch.lean ====
section
/-! SUPPORT. What each shared operation can do, said once: the decoder, the fetch, the branch, the history's push, and
the cases of the step. -/

namespace Sys2Proof

theorem Kind.ofOpcode_opcode (k : Kind) : Kind.ofOpcode k.opcode = k := by
  cases k <;> rfl

theorem Kind.opcodeMap_getElem (k : Kind) : opcodeMap[k.nibble.toNat]? = some k := by
  cases k <;> rfl

/-- The kind an opcode byte names has that byte's high nibble as its number. -/
theorem Kind.ofOpcode_nibble : ∀ op : Byte, (Kind.ofOpcode op).nibble.toNat = op.toNat / 16 := by
  decide +kernel

/-- A kind is the one an opcode byte names when its number is the byte's high nibble. -/
theorem Kind.ofOpcode_eq {op : Byte} {k : Kind} (h : op.toNat / 16 = k.nibble.toNat) : Kind.ofOpcode op = k := by
  have h' := Kind.ofOpcode_nibble op
  rw [h] at h'
  have e := Kind.opcodeMap_getElem (Kind.ofOpcode op)
  rw [h', Kind.opcodeMap_getElem k] at e
  exact (Option.some.inj e).symm

theorem decode_formatA {op : Byte} (h : (Kind.ofOpcode op).needsArg = false) (rest : List Byte) :
    decode (op :: rest) = .ok (Instr.ofKind (Kind.ofOpcode op) 0, rest) := by
  simp [decode, h]

theorem decode_formatB {op : Byte} (h : (Kind.ofOpcode op).needsArg = true) (arg : Byte) (rest : List Byte) :
    decode (op :: arg :: rest) = .ok (Instr.ofKind (Kind.ofOpcode op) arg, rest) := by
  simp [decode, h]

namespace Machine

/-- What the fetch gives in each case (R102). -/
theorem State.fetch_formatA {s : State} (hpc : s.pc.toNat ≤ 255) (hk : (Kind.ofOpcode s.opcodeByte).needsArg = false) :
    s.fetch = .ok [s.opcodeByte] := by
  simp [State.fetch, hk]; omega

theorem State.fetch_formatB {s : State} (hpc : s.pc.toNat ≤ 254) (hk : (Kind.ofOpcode s.opcodeByte).needsArg = true) :
    s.fetch = .ok [s.opcodeByte, s.argumentByte] := by
  rw [State.fetch, if_neg (by omega), if_pos hk, if_neg (by omega)]

theorem State.fetch_fetchOob {s : State} (hpc : 256 ≤ s.pc.toNat) : s.fetch = .error (.fetchOob, s.pc) := by
  simp [State.fetch, hpc]

theorem State.fetch_argOob {s : State} (hpc : s.pc.toNat = 255) (hk : (Kind.ofOpcode s.opcodeByte).needsArg = true) :
    s.fetch = .error (.argOob, s.pc + 1) := by
  simp [State.fetch, hk, hpc]

/-- The program counter in front of a completed instruction does not wrap (R26). -/
theorem pc_add_toNat {pc n : PcWord} (h : pc.toNat + n.toNat < 512) : (pc + n).toNat = pc.toNat + n.toNat := by
  rw [BitVec.toNat_add]
  exact Nat.mod_eq_of_lt h

@[simp] theorem zext9_toNat (v : Byte) : (zext9 v).toNat = v.toNat := by
  simp only [zext9, BitVec.toNat_setWidth]
  omega

@[simp] theorem branch_taken (target : Byte) (s : State) : branch true target s = s.setPc (zext9 target) := rfl

@[simp] theorem branch_not_taken (target : Byte) (s : State) : branch false target s = s.advance 2 := rfl

theorem State.memRead_congr {s t : State} (h : t.mem = s.mem) (a : Byte) : t.memRead a = s.memRead a := by
  rw [State.memRead, State.memRead, h]

/-- The slots of a pushed history (R162). -/
theorem History.push_getElem (v : Byte) (h : Vector Byte Config.histDepth) (i : Nat) (hi : i < Config.histDepth) :
    (History.push v h)[i] = if i = 0 then v else h[i - 1] := by
  cases i with
  | zero => simp [History.push]
  | succ i => simp [History.push]

/-- Every meaning answers a next state. -/
theorem exec_next (i : Instr) (s : State) : ∃ t, exec i s = .next t := by
  cases i
  case inp p => simp only [exec, execIn]; split <;> exact ⟨_, rfl⟩
  all_goals exact ⟨_, rfl⟩

/-- Only IN raises a fault inside `exec` (R103). -/
theorem exec_fault {i : Instr} {s t : State} (h : exec i s = .next t) (hi : i.kind ≠ .inp) : t.fault = s.fault := by
  cases i <;> first | exact absurd rfl hi | (cases h; simp)

/-- All a step can do: hold, fault at the opcode fetch, fault at the argument fetch, or execute the kind at the program
counter with the byte behind it (which a Format A kind does not look at). -/
theorem step_cases (s : State) :
    (s.ended = true ∧ step s = .next s) ∨
    (s.ended = false ∧ 256 ≤ s.pc.toNat ∧ step s = .next (s.raiseFault .fetchOob s.pc)) ∨
    (s.ended = false ∧ s.pc.toNat = 255 ∧ s.kindAtPc.needsArg = true ∧
      step s = .next (s.raiseFault .argOob (s.pc + 1))) ∨
    (s.ended = false ∧ s.pc.toNat ≤ 255 ∧ (s.kindAtPc.needsArg = true → s.pc.toNat ≤ 254) ∧
      step s = exec (Instr.ofKind s.kindAtPc s.argumentByte) s) := by
  cases he : s.ended
  · by_cases hpc : 256 ≤ s.pc.toNat
    · exact .inr (.inl ⟨rfl, hpc, by simp [step, he, State.fetch_fetchOob hpc]⟩)
    · cases hk : s.kindAtPc.needsArg
      · refine .inr (.inr (.inr ⟨rfl, by omega, by simp, ?_⟩))
        simp only [step, he, State.fetch_formatA (s := s) (by omega) hk, execBytes, decode_formatA hk []]
        change exec (Instr.ofKind s.kindAtPc 0) s = _
        cases hk' : s.kindAtPc <;> simp [hk', Kind.needsArg] at hk <;> rfl
      · by_cases h255 : s.pc.toNat = 255
        · exact .inr (.inr (.inl ⟨rfl, h255, rfl, by simp [step, he, State.fetch_argOob h255 hk]⟩))
        · refine .inr (.inr (.inr ⟨rfl, by omega, fun _ => by omega, ?_⟩))
          simp only [step, he, State.fetch_formatB (s := s) (by omega) hk, execBytes, decode_formatB hk _ []]
          rfl
  · exact .inl ⟨rfl, by simp [step, he]⟩

end Machine

end Sys2Proof
end

