-- ==== Sys2Proof/Laws/Memory.lean ====
section
/-! SUPPORT. Memory: what a read gives after each operation, and that every operation keeps the canonical form. -/

namespace Sys2Proof.Machine

@[simp] theorem Memory.read_nil (a : Nat) : Memory.read [] a = 0 := rfl

theorem Memory.read_cons (c : Host.Cell) (m : Memory) (a : Nat) :
    Memory.read (c :: m) a = if c.1 = a then c.2 else Memory.read m a := rfl

theorem Memory.mem_erase {m : Memory} {a : Nat} {c : Host.Cell} : c ∈ m.erase a ↔ c ∈ m ∧ c.1 ≠ a := by
  simp [Memory.erase]

theorem Memory.mem_insert {m : Memory} {a : Nat} {v : Byte} {c : Host.Cell} :
    c ∈ m.insert a v ↔ c = (a, v) ∨ c ∈ m := by
  induction m with
  | nil => simp [Memory.insert]
  | cons d m ih =>
    simp only [Memory.insert]
    split
    · simp
    · simp only [List.mem_cons, ih]
      tauto

theorem Memory.read_erase (m : Memory) (a b : Nat) :
    (m.erase a).read b = if b = a then 0 else m.read b := by
  induction m with
  | nil => simp [Memory.erase]
  | cons c m ih =>
    simp only [Memory.erase, List.filter_cons, bne_iff_ne] at ih ⊢
    split <;> simp only [Memory.read_cons, ih] <;> grind

theorem Memory.read_insert (m : Memory) (a b : Nat) (v : Byte) (h : ∀ c ∈ m, c.1 ≠ a) :
    (m.insert a v).read b = if b = a then v else m.read b := by
  induction m with
  | nil => simp only [Memory.insert, Memory.read_cons]; grind
  | cons c m ih =>
    have ih := ih fun d hd => h d (List.mem_cons_of_mem _ hd)
    have hc := h c List.mem_cons_self
    simp only [Memory.insert]
    split <;> simp only [Memory.read_cons, ih] <;> grind

/-- A write is seen at its address and nowhere else, whatever the memory. -/
theorem Memory.read_write (m : Memory) (a b : Nat) (v : Byte) :
    (m.write a v).read b = if b = a then v else m.read b := by
  unfold Memory.write
  split
  · rename_i h
    rw [Memory.read_erase, h]
    rfl
  · rw [Memory.read_insert _ _ _ _ fun c hc => (Memory.mem_erase.1 hc).2, Memory.read_erase]
    split <;> rfl

@[simp] theorem Memory.wf_nil : Memory.wf [] := by simp [Memory.wf]

theorem Memory.wf_erase {m : Memory} (h : m.wf) (a : Nat) : (m.erase a).wf :=
  ⟨h.1.filter _, fun c hc => h.2 c (Memory.mem_erase.1 hc).1⟩

theorem Memory.rising_insert {m : Memory} {a : Nat} {v : Byte}
    (h : m.Pairwise (fun c d : Host.Cell => c.1 < d.1)) (ha : ∀ c ∈ m, c.1 ≠ a) :
    (m.insert a v).Pairwise (fun c d : Host.Cell => c.1 < d.1) := by
  induction m with
  | nil => simp [Memory.insert]
  | cons c m ih =>
    have hc := ha c List.mem_cons_self
    obtain ⟨hlt, hm⟩ := List.pairwise_cons.1 h
    simp only [Memory.insert]
    split
    · rename_i hac
      refine List.pairwise_cons.2 ⟨fun d hd => ?_, h⟩
      rcases List.mem_cons.1 hd with rfl | hd
      · exact hac
      · exact hac.trans (hlt d hd)
    · rename_i hac
      refine List.pairwise_cons.2 ⟨fun d hd => ?_, ih hm fun d hd => ha d (List.mem_cons_of_mem _ hd)⟩
      rcases Memory.mem_insert.1 hd with rfl | hd
      · change c.1 < a; omega
      · exact hlt d hd

/-- A write inside memory keeps the canonical form. -/
theorem Memory.wf_write {m : Memory} (h : m.wf) {a : Nat} (ha : a < Config.memSize) (v : Byte) : (m.write a v).wf := by
  unfold Memory.write
  split
  · exact Memory.wf_erase h a
  · rename_i hv
    refine ⟨Memory.rising_insert (Memory.wf_erase h a).1 fun c hc => (Memory.mem_erase.1 hc).2, fun c hc => ?_⟩
    rcases Memory.mem_insert.1 hc with rfl | hc
    · exact ⟨ha, hv⟩
    · exact (Memory.wf_erase h a).2 c hc

theorem Memory.wf_place {m : Memory} (h : m.wf) (a : Nat) (bytes : List Byte) : (m.place a bytes).wf := by
  induction bytes generalizing m a with
  | nil => exact h
  | cons b bs ih =>
    simp only [Memory.place]
    split
    · exact ih (Memory.wf_write h ‹_› b) (a + 1)
    · exact h

theorem Memory.mem_ofImage {a : Nat} {image : List Byte} {c : Host.Cell} (h : c ∈ Memory.ofImage a image) :
    a ≤ c.1 ∧ c.1 < a + image.length ∧ c.2 ≠ 0 := by
  induction image generalizing a with
  | nil => simp [Memory.ofImage] at h
  | cons b bs ih =>
    simp only [Memory.ofImage] at h
    rw [List.length_cons]
    split at h
    · have ⟨h1, h2, h3⟩ := ih h
      exact ⟨by omega, by omega, h3⟩
    · rename_i hb
      rcases List.mem_cons.1 h with rfl | h
      · exact ⟨le_refl a, by simp, hb⟩
      · have ⟨h1, h2, h3⟩ := ih h
        exact ⟨by omega, by omega, h3⟩

theorem Memory.rising_ofImage (a : Nat) (image : List Byte) :
    (Memory.ofImage a image).Pairwise (fun c d : Host.Cell => c.1 < d.1) := by
  induction image generalizing a with
  | nil => simp [Memory.ofImage]
  | cons b bs ih =>
    simp only [Memory.ofImage]
    split
    · exact ih _
    · exact List.pairwise_cons.2 ⟨fun c hc => (Memory.mem_ofImage hc).1, ih _⟩

/-- An image that fits gives a canonical memory. -/
theorem Memory.wf_ofImage {image : List Byte} (h : image.length ≤ Config.memSize) : (Memory.ofImage 0 image).wf :=
  ⟨Memory.rising_ofImage 0 image, fun _ hc =>
    have ⟨_, h2, h3⟩ := Memory.mem_ofImage hc
    ⟨by omega, h3⟩⟩

/-- What a loaded image reads as: its bytes from `a` on, and 0 elsewhere. -/
theorem Memory.read_ofImage (a : Nat) (image : List Byte) (b : Nat) :
    (Memory.ofImage a image).read b = if h : a ≤ b ∧ b - a < image.length then image[b - a] else 0 := by
  induction image generalizing a with
  | nil => simp [Memory.ofImage]
  | cons c cs ih =>
    simp only [Memory.ofImage]
    by_cases hab : b = a
    · subst hab
      by_cases hc : c = Memory.unlisted
      · rw [if_pos hc, ih]
        simp [hc, Memory.unlisted]
      · rw [if_neg hc]
        simp [Memory.read]
    · have hrest : Memory.read (if c = Memory.unlisted then Memory.ofImage (a + 1) cs
          else (a, c) :: Memory.ofImage (a + 1) cs) b = (Memory.ofImage (a + 1) cs).read b := by
        by_cases hc : c = Memory.unlisted
        · rw [if_pos hc]
        · rw [if_neg hc]
          simp [Memory.read, Ne.symm hab]
      refine hrest.trans ?_
      rw [ih]
      by_cases hlt : a < b
      · have e : b - a = b - (a + 1) + 1 := by omega
        have hl : a + 1 ≤ b := hlt
        simp only [hl, hlt.le, true_and, List.length_cons, e, List.getElem_cons_succ, Nat.add_lt_add_iff_right]
      · rw [dif_neg (by omega), dif_neg (by omega)]

@[simp] theorem State.reset_mem_wf : State.reset.mem.wf := Memory.wf_nil

theorem State.memRead_memWrite (s : State) (a b v : Byte) :
    (s.memWrite a v).memRead b = if b = a then v else s.memRead b := by
  simp only [State.memRead, State.memWrite, Memory.read_write, BitVec.toNat_inj]

theorem State.memWrite_keeps_wf {s : State} (h : s.mem.wf) (a v : Byte) : (s.memWrite a v).mem.wf :=
  Memory.wf_write h a.isLt v

end Sys2Proof.Machine
end

