-- ==== Sys2Proof/Laws/PerInstr.lean ====
section
/-! SUPPORT. Statements about every instruction as syntax, one lemma per constructor. -/

namespace Sys2Proof.Laws.EncodedLength

/-- An encoding has as many bytes as the instruction's kind is long, one or two (R82, R85). -/
def Statement (i : Instr) : Prop :=
  (encode i).length = i.kind.length ∧ (i.kind.length = 1 ∨ i.kind.length = 2)

theorem nop : Statement .nop := ⟨rfl, .inl rfl⟩
theorem sta (arg : Byte) : Statement (.sta arg) := ⟨rfl, .inr rfl⟩
theorem lda (arg : Byte) : Statement (.lda arg) := ⟨rfl, .inr rfl⟩
theorem add (arg : Byte) : Statement (.add arg) := ⟨rfl, .inr rfl⟩
theorem or (arg : Byte) : Statement (.or arg) := ⟨rfl, .inr rfl⟩
theorem and (arg : Byte) : Statement (.and arg) := ⟨rfl, .inr rfl⟩
theorem not : Statement .not := ⟨rfl, .inl rfl⟩
theorem sub (arg : Byte) : Statement (.sub arg) := ⟨rfl, .inr rfl⟩
theorem jmp (arg : Byte) : Statement (.jmp arg) := ⟨rfl, .inr rfl⟩
theorem jn (arg : Byte) : Statement (.jn arg) := ⟨rfl, .inr rfl⟩
theorem jz (arg : Byte) : Statement (.jz arg) := ⟨rfl, .inr rfl⟩
theorem jnz (arg : Byte) : Statement (.jnz arg) := ⟨rfl, .inr rfl⟩
theorem inp (arg : Byte) : Statement (.inp arg) := ⟨rfl, .inr rfl⟩
theorem out : Statement .out := ⟨rfl, .inl rfl⟩
theorem ldi (arg : Byte) : Statement (.ldi arg) := ⟨rfl, .inr rfl⟩
theorem hlt : Statement .hlt := ⟨rfl, .inl rfl⟩

end Sys2Proof.Laws.EncodedLength
end

