-- ==== Sys2Proof/Tests/Slice0.lean ====
section
/-! SUPPORT. Tests of single steps, from the vectors of 95_test_vectors.md and words written out from R80 and R86, and
for every statement with hypotheses a witness that meets them. -/

namespace Sys2Proof.Tests

open Sys2Proof.Machine

/-- A running state with the given accumulator, program counter and non-zero cells. -/
def st (acc : Byte) (pc : PcWord) (cells : Memory) : State :=
  { State.reset with acc := acc, pc := pc, mem := cells }

/-- The answer is a next state with a property. -/
def answers (o : Host.Outcome State Fault Refusal) (p : State → Bool) : Bool :=
  match o with
  | .next t => p t
  | .fault _ => false
  | .refused _ => false

/-! ## What may be built (R39, R211) -/

theorem test_image_of_257_bytes_is_ill_formed : (Config.Build.mk (List.replicate 257 0) [0]).wellFormed = false := by
  decide +kernel
theorem test_image_of_256_bytes_is_well_formed : (Config.Build.mk (List.replicate 256 0) [0]).wellFormed = true := by
  decide +kernel
theorem test_no_port_is_ill_formed : (Config.Build.mk [] []).wellFormed = false := by decide
theorem test_257_ports_are_ill_formed : (Config.Build.mk [] (List.replicate 257 0)).wellFormed = false := by decide +kernel
/-- R87: no argument value is illegal. -/
theorem test_every_argument_is_well_formed : (Instr.inp 255).wellFormed = true := by decide

/-! ## Decoding: one word for each constructor, bit by bit (R80, R86) -/

theorem test_decode_nop : decode [0b00001111] = .ok (.nop, []) := rfl
theorem test_decode_sta : decode [0b00011111, 0b10000000] = .ok (.sta 128, []) := rfl
theorem test_decode_lda : decode [0b00101010, 0b01000000] = .ok (.lda 64, []) := rfl
theorem test_decode_add : decode [0b00111100, 0b00000001] = .ok (.add 1, []) := rfl
theorem test_decode_or : decode [0b01000101, 0b00100001] = .ok (.or 33, []) := rfl
theorem test_decode_and : decode [0b01011110, 0b00100000] = .ok (.and 32, []) := rfl
theorem test_decode_not : decode [0b01100001, 0b11111111] = .ok (.not, [255]) := rfl
theorem test_decode_sub : decode [0b01111111, 0b00010000] = .ok (.sub 16, []) := rfl
theorem test_decode_jmp : decode [0b10000000, 0b11111111] = .ok (.jmp 255, []) := rfl
theorem test_decode_jn : decode [0b10011001, 0b00001000] = .ok (.jn 8, []) := rfl
theorem test_decode_jz : decode [0b10100011, 0b00000000] = .ok (.jz 0, []) := rfl
theorem test_decode_jnz : decode [0b10111111, 0b00000010] = .ok (.jnz 2, []) := rfl
theorem test_decode_in : decode [0b11000111, 0b00000011] = .ok (.inp 3, []) := rfl
theorem test_decode_out : decode [0b11011001] = .ok (.out, []) := rfl
theorem test_decode_ldi : decode [0b11101110, 0b00000101, 0b11010000] = .ok (.ldi 5, [0xD0]) := rfl
theorem test_decode_hlt : decode [0b11111111] = .ok (.hlt, []) := rfl
theorem test_decode_without_argument : decode [0b00110000] = .error (.noArgument .add) := rfl
theorem test_decode_nothing : decode [] = .error .noOpcode := rfl
theorem test_encode_ldi : encode (.ldi 5) = [0xE0, 0x05] := rfl
theorem test_table_word_second_byte : decodeTableWord 16 0x8010 = some (.sta 128) := by decide
theorem test_table_word_short : decodeTableWord 8 0x8010 = some (.sta 0) := by decide

/-! ## Single steps (95_test_vectors.md L1, L2) -/

/-- T-1. -/
theorem test_sta : answers (step (st 0x2A 0x10 [(0x10, 0x10), (0x11, 0x80)]))
    (fun t => t.memRead 0x80 == 0x2A && t.pc == 0x12) = true := by decide
/-- T-2: STA to its own argument byte. -/
theorem test_sta_own_argument : answers (step (st 0x99 0x10 [(0x10, 0x10), (0x11, 0x11)]))
    (fun t => t.memRead 0x11 == 0x99 && t.memRead 0x10 == 0x10) = true := by decide
/-- T-5: LDA of its own opcode byte. -/
theorem test_lda_own_opcode : answers (step (st 0 0x10 [(0x10, 0x20), (0x11, 0x10)]))
    (fun t => t.acc == 0x20 && t.pc == 0x12) = true := by decide
/-- D-1: the low nibble is ignored. -/
theorem test_lda_low_nibble : answers (step (st 0 0 [(0, 0x2F), (1, 0x04), (4, 0x99)]))
    (fun t => t.acc == 0x99 && t.pc == 2) = true := by decide
/-- T-8. -/
theorem test_ldi : answers (step (st 0 0 [(0, 0xE0), (1, 0xFF)])) (fun t => t.acc == 0xFF && t.pc == 2) = true := by
  decide
/-- T-9: a two-byte kind at 255. -/
theorem test_ldi_at_255_faults : answers (step (st 0x11 255 [(255, 0xE0)]))
    (fun t => t.fault == ⟨true, .argOob, 256⟩ && t.acc == 0x11 && t.pc == 255) = true := by decide
/-- E2, A-5. -/
theorem test_add_wraps : answers (step (st 250 0 [(0, 0x30), (1, 0x40), (0x40, 10)]))
    (fun t => t.acc == 4 && t.pc == 2) = true := by decide
/-- A-7. -/
theorem test_or : answers (step (st 0x0F 0 [(0, 0x40), (1, 0x40), (0x40, 0x30)])) (fun t => t.acc == 0x3F) = true := by
  decide
/-- A-10. -/
theorem test_and : answers (step (st 0x7F 0 [(0, 0x50), (1, 0x40), (0x40, 0x0F)])) (fun t => t.acc == 0x0F) = true := by
  decide
/-- A-21: a one-byte kind at 255. -/
theorem test_not_at_255 : answers (step (st 1 255 [(255, 0x60)]))
    (fun t => t.acc == 0xFE && t.pc == 256 && !t.fault.valid) = true := by decide
/-- E2, A-17. -/
theorem test_sub_wraps : answers (step (st 5 0 [(0, 0x70), (1, 0x40), (0x40, 10)]))
    (fun t => t.acc == 251 && t.pc == 2) = true := by decide
/-- B-1. -/
theorem test_jmp : answers (step (st 0 0x10 [(0x10, 0x80), (0x11, 0x40)])) (fun t => t.pc == 0x40) = true := by decide
/-- B-6: just below the threshold. -/
theorem test_jn_63 : answers (step (st 63 0x10 [(0x10, 0x90), (0x11, 0x30)])) (fun t => t.pc == 0x12) = true := by
  decide
/-- B-10: at least 64 although bit 6 is 0 (conflict C1). -/
theorem test_jn_191 : answers (step (st 191 0x10 [(0x10, 0x90), (0x11, 0x30)])) (fun t => t.pc == 0x30) = true := by
  decide
/-- B-14. -/
theorem test_jz_taken : answers (step (st 0 0x10 [(0x10, 0xA0), (0x11, 0x30)])) (fun t => t.pc == 0x30) = true := by
  decide
/-- B-20: not taken at 254. -/
theorem test_jz_at_254 : answers (step (st 5 254 [(254, 0xA0)])) (fun t => t.pc == 256 && !t.fault.valid) = true := by
  decide
/-- B-17. -/
theorem test_jnz_not_taken : answers (step (st 0 0x10 [(0x10, 0xB0), (0x11, 0x30)])) (fun t => t.pc == 0x12) = true := by
  decide
/-- B-21: a jump that would not be taken still fetches its argument. -/
theorem test_jnz_at_255_faults : answers (step (st 0 255 [(255, 0xB0)]))
    (fun t => t.fault == ⟨true, .argOob, 256⟩ && t.pc == 255) = true := by decide
/-- IO-4: four ports, the last of them. -/
theorem test_in : answers (step { st 0 0 [(0, 0xC0), (1, 3)] with ports := [0, 0, 0, 9] })
    (fun t => t.acc == 9 && t.pc == 2) = true := by decide
/-- IO-3: four ports, index 4. -/
theorem test_in_port_oob : answers (step { st 0 0 [(0, 0xC0), (1, 4), (2, 0xF0)] with ports := [0, 0, 0, 9] })
    (fun t => t.fault == ⟨true, .portOob, 4⟩ && t.acc == 0 && t.pc == 0 && !t.halted) = true := by decide
/-- IO-6: a full history drops its oldest value. -/
theorem test_out_shifts :
    answers (step { st 0x77 0 [(0, 0xD0)] with hist := Vector.ofFn fun i => BitVec.ofNat 8 (i.val + 1) })
      (fun t => t.hist[0] == 0x77 && t.hist[1] == 1 && t.hist[39] == 39 && t.pc == 1) = true := by decide
/-- S-2: the step after a NOP at 255. -/
theorem test_fetch_oob : answers (step (st 0 256 []))
    (fun t => t.fault == ⟨true, .fetchOob, 256⟩ && t.pc == 256 && !t.halted) = true := by decide
/-- S-1. -/
theorem test_nop : answers (step (st 9 7 [])) (fun t => t.pc == 8 && t.acc == 9) = true := by decide
/-- S-4: HLT at 255. -/
theorem test_hlt_at_255 : answers (step (st 0 255 [(255, 0xF0)]))
    (fun t => t.halted && t.pc == 256 && !t.fault.valid) = true := by decide
/-- The word placed for the next fetch is what the step runs. -/
theorem test_with_fetch_word : answers (step (State.reset.withFetchWord 16 0x05E0))
    (fun t => t.acc == 5 && t.pc == 2) = true := by decide
/-- E9: the rest of memory is zero-filled. -/
theorem test_construct : answers (construct ⟨[0xE0, 0x05], [0]⟩)
    (fun t => t.memRead 0 == 0xE0 && t.memRead 1 == 0x05 && t.memRead 2 == 0 && t.memRead 255 == 0) = true := by decide
/-- A step of two edges commits at the second (R43). -/
theorem test_two_edges : (match Block.edges [⟨false, true, 2, [7]⟩, ⟨false, false, 2, [7]⟩]
    ⟨[], { st 0 7 [] with ports := [7] }, none, false⟩ 0 with
    | .next (k, n) => k.core.pc == 8 && n == 1 && k.retire
    | .fault _ => false
    | .refused _ => false) = true := by decide
/-- R45: the host drives another port value from a reset edge on, and the IN behind it reads that value. -/
theorem test_reset_takes_new_ports : (match Block.edges [⟨true, false, 1, [9]⟩, ⟨false, true, 1, [9]⟩]
    ⟨[0xC0, 0x00], { st 5 7 [] with ports := [7] }, none, false⟩ 0 with
    | .next (k, n) => k.core.acc == 9 && k.core.pc == 2 && n == 1
    | .fault _ => false
    | .refused _ => false) = true := by decide
/-- I10: port values changed in a run are refused. -/
theorem test_changed_port_is_refused : (match Block.edge ⟨false, true, 1, [9]⟩
    ⟨[], { st 0 7 [] with ports := [7] }, none, false⟩ with
    | .next _ => false
    | .fault _ => false
    | .refused r => r == .portsChangedDuringRun) = true := by decide
/-- L1 E7's program text. -/
theorem test_assemble : Assembly.assemble
    ['L', 'D', 'I', ' ', '5', ';', ' ', 'O', 'U', 'T', ';', ' ', 'H', 'L', 'T'] = some [0xE0, 0x05, 0xD0, 0xF0] := by
  decide +kernel
/-- R89: hexadecimal, and a line break between instructions. -/
theorem test_assemble_hex : Assembly.assemble
    ['J', 'N', 'Z', ' ', '0', 'x', 'f', 'F', '\n', 'N', 'O', 'T'] = some [0xB0, 0xFF, 0x60] := by decide +kernel
/-- R89: an argument above 255 is none. -/
theorem test_assemble_refuses_256 : Assembly.assemble ['J', 'M', 'P', ' ', '2', '5', '6'] = none := by decide +kernel

/-! ## Witnesses: states and operands that meet the hypotheses of the statements, at the edges of their ranges -/

theorem witness_construction_full_image : (List.replicate 256 (1 : Byte)).length ≤ 256 ∧ 1 ≤ [(7 : Byte)].length ∧
    [(7 : Byte)].length ≤ 256 := by decide +kernel
theorem witness_construction_all_ports : ([] : List Byte).length ≤ 256 ∧ 1 ≤ (List.replicate 256 (7 : Byte)).length ∧
    (List.replicate 256 (7 : Byte)).length ≤ 256 := by decide +kernel
theorem witness_oversize_image : 256 < (Config.Build.mk (List.replicate 257 0) [0]).image.length := by decide +kernel
theorem witness_reset_edge : (EdgeInputs.mk true false 1 [9]).rst = true ∧
    (EdgeInputs.mk true false 1 [9]).inPort.length = ({ st 0 0 [] with ports := [7] } : State).ports.length := by decide
theorem witness_reset_edge_with_other_ports : (EdgeInputs.mk true false 1 [9, 9]).rst = true ∧
    (EdgeInputs.mk true false 1 [9, 9]).inPort.length ≠ ({ st 0 0 [] with ports := [7] } : State).ports.length := by
  decide
theorem witness_port_of_a_reset_edge : (0 : Byte).toNat < (EdgeInputs.mk true false 1 [9]).inPort.length := by decide
theorem witness_changed_ports_in_progress : (EdgeInputs.mk false false 1 [9]).inPort ≠
      ({ st 0 0 [] with ports := [7] } : State).ports ∧
    (Block.mk [] { st 0 0 [] with ports := [7] } (some 1) false).pending ≠ none := by decide
theorem witness_changed_ports_at_a_begin : (EdgeInputs.mk false true 1 [9]).inPort ≠
      ({ st 0 0 [] with ports := [7] } : State).ports ∧ (EdgeInputs.mk false true 1 [9]).en = true ∧
    ({ st 0 0 [] with ports := [7] } : State).halted = false ∧
    ({ st 0 0 [] with ports := [7] } : State).fault.valid = false := by decide
theorem witness_decode_inverts_encode : (Instr.jnz 255).wellFormed = true := rfl
theorem witness_encode_inverts_decode : decode [0x2F, 0x04, 0x99] = .ok (.lda 4, [0x99]) := rfl
theorem witness_encode_inverts_decode_formatA : decode [0xFF] = .ok (.hlt, []) := rfl
theorem witness_low_nibble : (0x20 : Byte).toNat / 16 = (0x2F : Byte).toNat / 16 := by decide
theorem witness_opcode_map_rows : ∀ k < 16, (BitVec.ofNat 8 (16 * k)).toNat / 16 = k ∧
    (BitVec.ofNat 8 (16 * k + 15)).toNat / 16 = k := by decide
theorem witness_step_runs_formatA : (st 1 255 [(255, 0x6A)]).ended = false ∧ (st 1 255 [(255, 0x6A)]).pc.toNat ≤ 255 ∧
    decode [(st 1 255 [(255, 0x6A)]).opcodeByte] = .ok (.not, []) := ⟨by decide, by decide, rfl⟩
theorem witness_step_runs_formatB : (st 1 254 [(254, 0x3C), (255, 0xFF)]).ended = false ∧
    (st 1 254 [(254, 0x3C), (255, 0xFF)]).pc.toNat ≤ 254 ∧
    decode [(st 1 254 [(254, 0x3C), (255, 0xFF)]).opcodeByte, (st 1 254 [(254, 0x3C), (255, 0xFF)]).argumentByte] =
      .ok (.add 255, []) := ⟨by decide, by decide, rfl⟩
theorem witness_halted_state : (st 3 4 [(3, 0xF0)]).halt.halted = true ∧ (st 3 4 [(3, 0xF0)]).halt.ended = true := by
  decide
theorem witness_faulted_state : ((st 3 256 []).raiseFault .fetchOob 256).fault.valid = true := rfl
theorem witness_fetch_oob : (st 3 256 []).ended = false ∧ 256 ≤ (st 3 256 []).pc.toNat := by decide
theorem witness_fetch_oob_unreachable_pc : (st 3 511 []).ended = false ∧ 256 ≤ (st 3 511 []).pc.toNat := by decide
theorem witness_arg_oob : (st 3 255 [(255, 0x30)]).ended = false ∧ (st 3 255 [(255, 0x30)]).pc.toNat = 255 ∧
    (st 3 255 [(255, 0x30)]).kindAtPc.needsArg = true := by decide
theorem witness_one_byte_kind_at_255 : (st 3 255 [(255, 0xD0)]).pc.toNat = 255 ∧
    (st 3 255 [(255, 0xD0)]).kindAtPc.needsArg = false := by decide
theorem witness_faulting_step : ∃ t, (st 3 256 []).fault.valid = false ∧ step (st 3 256 []) = .next t ∧
    t.fault.valid = true := ⟨_, rfl, rfl, rfl⟩
theorem witness_port_oob : ({ st 0 254 [(254, 0xC0), (255, 4)] with ports := [0, 0, 0, 9] } : State).ended = false ∧
    ({ st 0 254 [(254, 0xC0), (255, 4)] with ports := [0, 0, 0, 9] } : State).kindAtPc = .inp ∧
    [(0 : Byte), 0, 0, 9].length ≤
      ({ st 0 254 [(254, 0xC0), (255, 4)] with ports := [0, 0, 0, 9] } : State).argumentByte.toNat := by decide
/-- For each Format B kind: a state at 254, the last place, that presents it to the next step. -/
theorem witness_presentsB (k : Nat) (hk : k ∈ [1, 2, 3, 4, 5, 7, 8, 9, 10, 11, 12, 14]) :
    (st 64 254 [(254, BitVec.ofNat 8 (16 * k)), (255, 0xFF)]).presentsB k 0xFF := by
  simp only [List.mem_cons, List.not_mem_nil, or_false] at hk
  rcases hk with rfl | rfl | rfl | rfl | rfl | rfl | rfl | rfl | rfl | rfl | rfl | rfl <;>
    exact ⟨by decide, by decide, by decide, by decide⟩
/-- For each Format A kind: a state at 255, the last place, that presents it to the next step. -/
theorem witness_presentsA (k : Nat) (hk : k ∈ [0, 6, 13, 15]) :
    (st 64 255 [(255, BitVec.ofNat 8 (16 * k + 1))]).presentsA k := by
  simp only [List.mem_cons, List.not_mem_nil, or_false] at hk
  rcases hk with rfl | rfl | rfl | rfl <;> exact ⟨by decide, by decide, by decide⟩
theorem witness_branch_decisions : (st 64 254 []).pc.toNat ≤ 254 ∧ (0 : Byte).toNat ≠ (st 64 254 []).pc.toNat + 2 ∧
    (st 0 0 []).pc.toNat ≤ 254 ∧ (1 : Byte).toNat ≠ (st 0 0 []).pc.toNat + 2 := by decide
theorem witness_in_last_port : (255 : Byte).toNat < (st 0 254 []).ports.length ∧ (st 0 254 []).pc.toNat ≤ 254 := by
  decide +kernel
theorem witness_in_first_missing_port :
    ({ st 0 0 [] with ports := [0, 0, 0, 9] } : State).ports.length ≤ (4 : Byte).toNat := by decide
theorem witness_in_all_ports : (st 0 0 []).ports.length = 256 := by decide +kernel
theorem witness_pc_after_fault : ∃ t, (st 0 255 [(255, 0x80)]).ended = false ∧ step (st 0 255 [(255, 0x80)]) = .next t ∧
    t.fault.valid = true := ⟨_, by decide, rfl, rfl⟩
theorem witness_pc_without_fault : ∃ t, (st 0 254 [(254, 0x80)]).ended = false ∧ step (st 0 254 [(254, 0x80)]) = .next t ∧
    t.fault.valid = false := ⟨_, by decide, rfl, rfl⟩
theorem witness_acc_changes : ∃ t, step (st 0 0 [(0, 0xE0), (1, 5)]) = .next t ∧ t.acc ≠ 0 := ⟨_, rfl, by decide⟩
theorem witness_memory_changes : ∃ t, step (st 7 0 [(0, 0x10), (1, 5)]) = .next t ∧
    t.memRead 5 ≠ (st 7 0 [(0, 0x10), (1, 5)]).memRead 5 := ⟨_, rfl, by decide⟩
theorem witness_history_changes : ∃ t, step (st 7 0 [(0, 0xD0)]) = .next t ∧ t.hist ≠ (st 7 0 [(0, 0xD0)]).hist :=
  ⟨_, rfl, by decide⟩
theorem witness_halted_changes : ∃ t, step (st 7 0 [(0, 0xF0)]) = .next t ∧ t.halted ≠ (st 7 0 [(0, 0xF0)]).halted :=
  ⟨_, rfl, by decide⟩
theorem witness_fault_changes : ∃ t, step (st 7 256 []) = .next t ∧ t.fault ≠ (st 7 256 []).fault :=
  ⟨_, rfl, by decide⟩
theorem witness_acc_not_read_and_written : ∃ t, step (st 0 0 [(0, 0xE0), (1, 5)]) = .next t ∧
    (st 0 0 [(0, 0xE0), (1, 5)]).ended = false ∧ t.fault.valid = false ∧
    (st 0 0 [(0, 0xE0), (1, 5)]).kindAtPc ∈ [Kind.lda, .ldi, .inp] := ⟨_, rfl, by decide, rfl, by decide⟩
theorem witness_acc_not_read_nor_written : ∃ t, step (st 0 0 [(0, 0x80), (1, 5)]) = .next t ∧
    (st 0 0 [(0, 0x80), (1, 5)]).ended = false ∧ t.fault.valid = false ∧
    (st 0 0 [(0, 0x80), (1, 5)]).kindAtPc ∈ [Kind.nop, .jmp, .hlt] := ⟨_, rfl, by decide, rfl, by decide⟩
theorem witness_history_never_read : ∃ t, step (st 7 255 [(255, 0xD0)]) = .next t := ⟨_, rfl⟩
theorem witness_ports_not_read : ∃ t, step (st 7 0 [(0, 0x20), (1, 1)]) = .next t ∧
    (st 7 0 [(0, 0x20), (1, 1)]).kindAtPc ≠ .inp := ⟨_, rfl, by decide⟩
theorem witness_canonical_memories : ∀ a < 256, Memory.wf [(0, 1), (255, 2)] ∧
    Memory.read [(0, 1), (255, 2)] a = Memory.read (Memory.write [(0, 1)] 255 2) a := by decide +kernel
/-- STA to the opcode byte of the next instruction. -/
theorem witness_store_to_next_opcode : (st 0xF0 253 [(253, 0x10), (254, 0xFF)]).presentsB 0x1 0xFF ∧
    (0xFF : Byte).toNat = (st 0xF0 253 [(253, 0x10), (254, 0xFF)]).pc.toNat + 2 ∧ decode [0xF0] = .ok (.hlt, []) :=
  ⟨⟨by decide, by decide, by decide, by decide⟩, by decide, rfl⟩
/-- STA of a two-byte opcode to the opcode byte of the next instruction. -/
theorem witness_store_two_byte_opcode : (st 0xE0 252 [(252, 0x10), (253, 0xFE), (255, 9)]).presentsB 0x1 0xFE ∧
    (0xFE : Byte).toNat = (st 0xE0 252 [(252, 0x10), (253, 0xFE), (255, 9)]).pc.toNat + 2 ∧
    decode [0xE0, (st 0xE0 252 [(252, 0x10), (253, 0xFE), (255, 9)]).memRead ((252 : PcWord).setWidth 8 + 3)] =
      .ok (.ldi 9, []) := ⟨⟨by decide, by decide, by decide, by decide⟩, by decide, rfl⟩
/-- STA of a two-byte opcode to 255. -/
theorem witness_store_two_byte_opcode_at_255 : (st 0xE0 253 [(253, 0x10), (254, 0xFF)]).presentsB 0x1 0xFF ∧
    (st 0xE0 253 [(253, 0x10), (254, 0xFF)]).pc.toNat = 253 ∧ (Kind.ofOpcode 0xE0).needsArg = true :=
  ⟨⟨by decide, by decide, by decide, by decide⟩, by decide, rfl⟩
/-- STA to the argument byte of the next instruction. -/
theorem witness_store_to_next_argument : (st 9 252 [(252, 0x10), (253, 0xFF), (254, 0xE0)]).presentsB 0x1 0xFF ∧
    (0xFF : Byte).toNat = (st 9 252 [(252, 0x10), (253, 0xFF), (254, 0xE0)]).pc.toNat + 3 ∧
    decode [(st 9 252 [(252, 0x10), (253, 0xFF), (254, 0xE0)]).memRead ((252 : PcWord).setWidth 8 + 2), 9] =
      .ok (.ldi 9, []) := ⟨⟨by decide, by decide, by decide, by decide⟩, by decide, rfl⟩
/-- A state behind an HLT, with one port and a written cell, meets the invariant and has a next state. -/
theorem witness_invariant : ∃ t,
    ({ st 5 256 [(0, 9), (255, 0xFF)] with ports := [3], halted := true } : State).Inv ∧
    step { st 5 256 [(0, 9), (255, 0xFF)] with ports := [3], halted := true } = .next t :=
  ⟨_, ⟨by decide, by decide, by decide, ⟨rfl, rfl⟩, by decide, by decide⟩, rfl⟩
/-- A running state at 255, in front of an argument that is not there, meets the invariant. -/
theorem witness_invariant_running : ∃ t, (st 5 255 [(255, 0x10)]).Inv ∧ step (st 5 255 [(255, 0x10)]) = .next t :=
  ⟨_, ⟨by decide +kernel, by decide +kernel, by decide +kernel, ⟨rfl, rfl⟩, by decide +kernel, by decide +kernel⟩, rfl⟩
/-- The history of the reset state is all zeros. -/
theorem witness_zero_history : ∀ i : Fin 40, State.reset.hist[i.val] = 0 := by decide
/-- A block whose edge answers a next state from a core that meets the invariant. -/
theorem witness_edge_keeps : ∃ k',
    ({ st 5 255 [(255, 0x10)] with ports := [7] } : State).Inv ∧ ([] : List Byte).length ≤ 256 ∧
    Block.edge ⟨true, false, 1, [9]⟩ ⟨[], { st 5 255 [(255, 0x10)] with ports := [7] }, none, false⟩ = .next k' :=
  ⟨_, ⟨by decide, by decide, by decide, ⟨rfl, rfl⟩, by decide, by decide⟩, by decide, rfl⟩
theorem witness_constructed : ∃ s, construct ⟨[0xE0, 0x05], [7]⟩ = .next s := ⟨_, rfl⟩
theorem witness_nops_to_the_end : (st 5 255 [(0, 9)]).ended = false ∧ (st 5 255 [(0, 9)]).pc.toNat ≤ 256 ∧
    ∀ a : Byte, (st 5 255 [(0, 9)]).pc.toNat ≤ a.toNat → ((st 5 255 [(0, 9)]).memRead a).toNat / 16 = 0 := by
  decide +kernel
theorem witness_nops_at_the_end : (st 5 256 [(0, 9)]).ended = false ∧ (st 5 256 [(0, 9)]).pc.toNat ≤ 256 ∧
    ∀ a : Byte, (st 5 256 [(0, 9)]).pc.toNat ≤ a.toNat → ((st 5 256 [(0, 9)]).memRead a).toNat / 16 = 0 := by
  decide +kernel
/-- B-2. -/
theorem witness_jump_to_itself : (st 0 0x10 [(0x10, 0x80), (0x11, 0x10)]).presentsB 0x8 0x10 ∧
    (0x10 : Byte).toNat = (st 0 0x10 [(0x10, 0x80), (0x11, 0x10)]).pc.toNat :=
  ⟨⟨by decide, by decide, by decide, by decide⟩, by decide⟩
theorem witness_run_ends_halted : ∃ t, (st 0 0 [(0, 0xF0)]).steps 1 = .next t ∧ t.halted = true := ⟨_, rfl, rfl⟩
theorem witness_run_ends_faulted : ∃ t, (st 0 256 []).steps 1 = .next t ∧ t.halted = false ∧ t.fault.valid = true :=
  ⟨_, rfl, rfl, rfl⟩
theorem witness_run_ends_at_its_bound : ∃ t, (st 0 0 []).steps 1 = .next t ∧ t.halted = false ∧ t.fault.valid = false :=
  ⟨_, rfl, rfl, rfl⟩
theorem witness_edge_of_a_step_in_progress : (Block.mk [] { st 0 0 [] with ports := [7] } (some 1) false).pending = some 1 ∧
    (Block.mk [] { st 0 0 [] with ports := [7] } (some 2) false).pending = some 2 ∧
    (EdgeInputs.mk false false 1 [7]).inPort = ({ st 0 0 [] with ports := [7] } : State).ports ∧ (EdgeInputs.mk false false 1 [7]).rst = false :=
  ⟨rfl, rfl, rfl, rfl⟩
theorem witness_edge_that_begins :
    (Block.mk [] { st 0 0 [] with ports := [7] } none true).pending = none ∧
    (EdgeInputs.mk false true 1 [7]).inPort = ({ st 0 0 [] with ports := [7] } : State).ports ∧
    (EdgeInputs.mk false true 1 [7]).rst = false ∧ (EdgeInputs.mk false true 1 [7]).en = true ∧
    (st 0 0 []).halted = false ∧ (st 0 0 []).fault.valid = false :=
  ⟨rfl, rfl, rfl, rfl, rfl, rfl⟩
theorem witness_edge_that_holds : (Block.mk [] (st 0 0 []).halt none true).pending = none ∧
    (EdgeInputs.mk false false 1 [7]).en = false ∧ (st 0 0 []).halt.halted = true := ⟨rfl, rfl, rfl⟩
theorem witness_edges_without_reset : ∀ i ∈ [EdgeInputs.mk false true 3 [7], ⟨false, false, 1, [9]⟩], i.rst = false := by simp

end Sys2Proof.Tests
end

/-! ## State family: what one step can do

A step holds an ended state, records one fault, or completes one instruction. `Completion` lists what completing an
instruction can do to the state; the whole-machine statements are read off it. -/

section

namespace Sys2Proof.Machine

/-! ### Ended states -/

theorem State.ended_eq_false {s : State} : s.ended = false ↔ s.halted = false ∧ s.fault.valid = false := by
  simp [State.ended]

theorem State.ended_eq_true {s : State} : s.ended = true ↔ s.halted = true ∨ s.fault.valid = true := by
  simp [State.ended]

/-! ### Completed instructions -/

/-- The kinds that write the accumulator (R21). -/
def accWriters : List Kind := [.lda, .add, .or, .and, .not, .sub, .inp, .ldi]

/-- Whether a kind sends the program counter to its argument: JMP always, the conditional jumps by the accumulator
(R146-R151), the other kinds never. -/
def jumpTaken : Kind → Byte → Bool
  | .jmp, _ => true
  | .jn, acc => jnTaken acc
  | .jz, acc => jzTaken acc
  | .jnz, acc => jnzTaken acc
  | _, _ => false

/-- What an instruction of kind `k` with argument byte `arg` leads to from `s` when it completes. -/
inductive Completion (s : State) (arg : Byte) : Kind → State → Prop
  | load {k : Kind} (hk : k ∈ accWriters) (v : Byte) :
      Completion s arg k ((s.setAcc v).advance (BitVec.ofNat 9 k.length))
  | store : Completion s arg .sta ((s.memWrite arg s.acc).advance 2)
  | jump {k : Kind} (hk : k ∈ [Kind.jmp, .jn, .jz, .jnz]) : Completion s arg k (branch (jumpTaken k s.acc) arg s)
  | emit : Completion s arg .out ((s.histPush s.acc).advance 1)
  | idle : Completion s arg .nop (s.advance 1)
  | stop : Completion s arg .hlt (s.halt.advance 1)

/-- A port index names a port of the block or lies at or above their number (R160). -/
theorem State.portRead_cases (s : State) (port : Byte) :
    (∃ v, s.portRead port = some v) ∨ s.ports.length ≤ port.toNat := by
  rcases Nat.lt_or_ge port.toNat s.ports.length with h | h
  · exact .inl ⟨_, List.getElem?_eq_getElem h⟩
  · exact .inr h

/-- IN of a port the block has (R160). -/
theorem exec_inp_of_port {s : State} {port v : Byte} (h : s.portRead port = some v) :
    exec (.inp port) s = .next ((s.setAcc v).advance 2) := by
  simp [exec, execIn, portValue, h]

/-- IN of a port the block does not have (R160). -/
theorem exec_inp_of_no_port {s : State} {port : Byte} (h : s.ports.length ≤ port.toNat) :
    exec (.inp port) s = .next (s.raiseFault .portOob (zext9 port)) := by
  simp [exec, execIn, portValue, State.portRead, h]

/-- An instruction completes, or it is an IN of a port the block does not have. -/
theorem exec_completes {k : Kind} {arg : Byte} {s t : State} (h : exec (Instr.ofKind k arg) s = .next t) :
    Completion s arg k t ∨
      (k = .inp ∧ s.ports.length ≤ arg.toNat ∧ t = s.raiseFault .portOob (zext9 arg)) := by
  cases k
  case inp =>
    rcases s.portRead_cases arg with ⟨v, hv⟩ | hp
    · cases h.symm.trans (exec_inp_of_port hv)
      exact .inl (.load (by decide) v)
    · exact .inr ⟨rfl, hp, Host.Outcome.next.inj (h.symm.trans (exec_inp_of_no_port hp))⟩
  case nop => cases h; exact .inl .idle
  case sta => cases h; exact .inl .store
  case out => cases h; exact .inl .emit
  case hlt => cases h; exact .inl .stop
  case jmp | jn | jz | jnz => cases h; exact .inl (.jump (by decide))
  case lda | add | or | and | not | sub | ldi => cases h; exact .inl (.load (by decide) _)

namespace Completion

variable {s t : State} {k : Kind} {arg : Byte}

theorem ports_eq (h : Completion s arg k t) : t.ports = s.ports := by
  cases h <;> simp

theorem fault_eq (h : Completion s arg k t) : t.fault = s.fault := by
  cases h <;> simp

theorem acc_eq_or_writer (h : Completion s arg k t) : t.acc = s.acc ∨ k ∈ accWriters := by
  cases h with
  | load hk v => exact .inr hk
  | _ => exact .inl (by simp)

theorem mem_eq_or_store (h : Completion s arg k t) :
    t.mem = s.mem ∨ (k = .sta ∧ t.mem = (s.memWrite arg s.acc).mem) := by
  cases h with
  | store => exact .inr ⟨rfl, rfl⟩
  | _ => exact .inl (by simp)

theorem hist_eq_or_out (h : Completion s arg k t) : t.hist = s.hist ∨ k = .out := by
  cases h with
  | emit => exact .inr rfl
  | _ => exact .inl (by simp)

theorem halted_eq_or_hlt (h : Completion s arg k t) : t.halted = s.halted ∨ (k = .hlt ∧ t = s.halt.advance 1) := by
  cases h with
  | stop => exact .inr ⟨rfl, rfl⟩
  | _ => exact .inl (by simp)

end Completion

/-! ### The program counter -/

/-- R145, R150: where a branch with both its bytes inside memory leads. -/
theorem branch_pc_toNat {s : State} (hpc : s.pc.toNat ≤ 254) (taken : Bool) (target : Byte) :
    (branch taken target s).pc.toNat = if taken then target.toNat else s.pc.toNat + 2 := by
  cases taken with
  | true => simp
  | false => exact pc_add_toNat (n := 2) (by simp; omega)

/-- A kind that writes the accumulator does not jump. -/
theorem jumpTaken_accWriter {k : Kind} (hk : k ∈ accWriters) (acc : Byte) : jumpTaken k acc = false := by
  revert hk; cases k <;> simp [accWriters, jumpTaken]

theorem kind_length_le_two (k : Kind) : k.length ≤ 2 := by
  cases k <;> decide

theorem jump_kind_length {k : Kind} (hk : k ∈ [Kind.jmp, .jn, .jz, .jnz]) : k.length = 2 := by
  revert hk; cases k <;> decide

/-- R25: the program counter behind a completed instruction, whose bytes lie inside memory. -/
theorem Completion.pc_toNat {s t : State} {k : Kind} {arg : Byte} (h : Completion s arg k t)
    (hpc : s.pc.toNat + k.length ≤ 256) :
    t.pc.toNat = if jumpTaken k s.acc then arg.toNat else s.pc.toNat + k.length := by
  cases h with
  | load hk v =>
    have hl := kind_length_le_two k
    have hn : (BitVec.ofNat 9 k.length).toNat = k.length := Nat.mod_eq_of_lt (by omega)
    have hadd := pc_add_toNat (pc := s.pc) (n := BitVec.ofNat 9 k.length) (by omega)
    rw [jumpTaken_accWriter hk]
    exact hadd.trans (by rw [hn]; rfl)
  | jump hk =>
    rw [jump_kind_length hk] at hpc ⊢
    exact branch_pc_toNat (by omega) _ _
  | store | emit | idle | stop => exact pc_add_toNat (by simp [Kind.length, Kind.needsArg] at hpc ⊢; omega)

/-- R27: the program counter stays at or below 256. -/
theorem Completion.pc_le {s t : State} {k : Kind} {arg : Byte} (h : Completion s arg k t)
    (hpc : s.pc.toNat + k.length ≤ 256) : t.pc.toNat ≤ 256 := by
  rw [h.pc_toNat hpc]
  split
  · omega
  · exact hpc

/-! ### The cases of a step -/

/-- Inside memory, the opcode byte is the cell the program counter names. -/
theorem State.opcodeByte_eq_read {s : State} (hpc : s.pc.toNat ≤ 255) : s.opcodeByte = s.mem.read s.pc.toNat := by
  rw [State.opcodeByte, State.memRead, BitVec.toNat_setWidth, Nat.mod_eq_of_lt (by omega)]

/-- All that a step answering `t` can have done: held an ended state, raised a fault whose record fits, or completed the
instruction at the program counter with all its bytes inside memory. -/
theorem step_outcome {s t : State} (h : step s = .next t) :
    (s.ended = true ∧ t = s) ∨
    (s.ended = false ∧ ∃ cause info, t = s.raiseFault cause info ∧ (s.pc.toNat ≤ 256 → t.faultRecordFits)) ∨
    (s.ended = false ∧ s.pc.toNat + s.kindAtPc.length ≤ 256 ∧ Completion s s.argumentByte s.kindAtPc t) := by
  rcases step_cases s with ⟨he, hs⟩ | ⟨he, hpc, hs⟩ | ⟨he, hpc, hk, hs⟩ | ⟨he, hpc, hk, hs⟩
  · exact .inl ⟨he, Host.Outcome.next.inj (h.symm.trans hs)⟩
  · cases h.symm.trans hs
    exact .inr (.inl ⟨he, _, _, rfl, fun hle => ⟨rfl, le_antisymm hle hpc, rfl⟩⟩)
  · cases h.symm.trans hs
    have hinfo : (s.pc + 1).toNat = 256 := (pc_add_toNat (by simp [hpc])).trans (by simp [hpc])
    exact .inr (.inl ⟨he, _, _, rfl, fun _ => ⟨rfl, hpc, hinfo, hk⟩⟩)
  · have hlen : s.pc.toNat + s.kindAtPc.length ≤ 256 := by
      unfold Kind.length
      split
      · have := hk ‹_›; omega
      · omega
    rcases exec_completes (hs.symm.trans h) with hc | ⟨hin, hport, rfl⟩
    · exact .inr (.inr ⟨he, hlen, hc⟩)
    · have hpc' : s.pc.toNat ≤ 254 := hk (by rw [hin]; rfl)
      exact .inr (.inl ⟨he, _, _, rfl, fun _ => ⟨rfl, hpc', hin, rfl, hport⟩⟩)

/-! ### The invariant -/

/-- A record that is not valid fits only when it is empty (R35). -/
theorem State.faultRecordFits_of_not_valid {s : State} (h : s.fault.valid = false) :
    s.faultRecordFits ↔ s.fault = ⟨false, .none, 0⟩ := by
  obtain ⟨acc, pc, mem, ports, hist, halted, valid, cause, info⟩ := s
  cases cause <;> simp_all [State.faultRecordFits]

/-- Recording a fault that fits keeps the invariant of a running state. -/
theorem State.Inv.raiseFault {s : State} (hs : s.Inv) (he : s.ended = false) {cause : FaultCause} {info : PcWord}
    (hfit : (s.raiseFault cause info).faultRecordFits) : (s.raiseFault cause info).Inv := by
  have hh : s.halted = false := (State.ended_eq_false.1 he).1
  exact ⟨hs.memCanonical, hs.pcReachable, hs.portCount, hfit, by simp [hh], by simp [hh]⟩

theorem Completion.mem_wf {s t : State} {k : Kind} {arg : Byte} (h : Completion s arg k t) (hm : s.mem.wf) :
    t.mem.wf := by
  rcases h.mem_eq_or_store with e | ⟨_, e⟩ <;> rw [e]
  · exact hm
  · exact State.memWrite_keeps_wf hm _ _

/-- A completed instruction keeps the invariant of a running state. -/
theorem State.Inv.completion {s t : State} (hs : s.Inv) (he : s.ended = false)
    (hpc : s.pc.toNat + s.kindAtPc.length ≤ 256) (h : Completion s s.argumentByte s.kindAtPc t) : t.Inv := by
  obtain ⟨hrun, hvalid⟩ := State.ended_eq_false.1 he
  have hvalid' : t.fault.valid = false := h.fault_eq ▸ hvalid
  refine ⟨h.mem_wf hs.memCanonical, h.pc_le hpc, h.ports_eq ▸ hs.portCount, ?_, by simp [hvalid'], fun hhalt => ?_⟩
  · rw [State.faultRecordFits_of_not_valid hvalid', h.fault_eq]
    exact (State.faultRecordFits_of_not_valid hvalid).1 hs.faultFits
  · rcases h.halted_eq_or_hlt with e | ⟨hk, rfl⟩
    · simp [e, hrun] at hhalt
    · have hpc' : s.pc.toNat ≤ 255 := by
        have hlen : s.kindAtPc.length = 1 := by rw [hk]; rfl
        omega
      have hnext : (s.halt.advance 1).pc.toNat = s.pc.toNat + 1 := pc_add_toNat (n := 1) (by simp; omega)
      have hop : Kind.ofOpcode (s.mem.read s.pc.toNat) = .hlt := State.opcodeByte_eq_read hpc' ▸ hk
      exact ⟨by omega, by rw [hnext]; exact hop⟩

/-- Settles O44: a step holds, records a fault that fits, or completes an instruction, and each keeps the invariant. -/
theorem stepKeepsTheInvariant : Obligations.StepKeepsTheInvariant := by
  intro s t hs h
  rcases step_outcome h with ⟨_, rfl⟩ | ⟨he, cause, info, rfl, hfit⟩ | ⟨he, hpc, hc⟩
  · exact hs
  · exact hs.raiseFault he (hfit hs.pcReachable)
  · exact hs.completion he hpc hc

end Sys2Proof.Machine

end

/-! ## State family: which step changes and which step reads a piece of state -/

section

namespace Sys2Proof.Machine

/-- Settles O21: the step of a running state records a fault, which keeps the program counter, or completes, and then
`Completion.pc_toNat` gives the program counter kind by kind. -/
theorem programCounterAfterAStep : Obligations.ProgramCounterAfterAStep := by
  intro s t he h
  rcases step_outcome h with ⟨he', _⟩ | ⟨_, cause, info, rfl, _⟩ | ⟨_, hpc, hc⟩
  · simp [he] at he'
  · simp
  · have hvalid : t.fault.valid = false := by rw [hc.fault_eq, (State.ended_eq_false.1 he).2]
    refine ⟨by simp [hvalid], fun _ => ?_⟩
    have hnext := hc.pc_toNat hpc
    cases hk : s.kindAtPc <;> rw [hk] at hnext <;>
      simpa [jumpTaken, Kind.length, Kind.needsArg, jnTaken, jzTaken, jnzTaken, BitVec.toNat_eq] using hnext

/-- A completed instruction changes a cell only as STA, and only the cell its argument names (R29, R120). -/
theorem Completion.sta_of_memRead_ne {s t : State} {k : Kind} {arg a : Byte} (h : Completion s arg k t)
    (hne : t.memRead a ≠ s.memRead a) : k = .sta ∧ a = arg := by
  rcases h.mem_eq_or_store with e | ⟨hk, e⟩
  · exact absurd (State.memRead_congr e a) hne
  · refine ⟨hk, by_contra fun ha => hne ?_⟩
    rw [State.memRead_congr e, State.memRead_memWrite, if_neg ha]

/-- Settles O37, from what holding, recording a fault and completing each change. -/
theorem onlyItsWritersChangeAPieceOfState : Obligations.OnlyItsWritersChangeAPieceOfState := by
  intro s t h
  rcases step_outcome h with ⟨_, rfl⟩ | ⟨he, cause, info, rfl, _⟩ | ⟨_, _, hc⟩
  · simp
  · simp [State.memRead, (State.ended_eq_false.1 he).2]
  · refine ⟨hc.ports_eq, fun hne => ?_, fun a hne => hc.sta_of_memRead_ne hne, fun hne => ?_, fun hne => ?_,
      fun hne => absurd hc.fault_eq hne⟩
    · exact hc.acc_eq_or_writer.resolve_left hne
    · exact hc.hist_eq_or_out.resolve_left hne
    · obtain ⟨hk, rfl⟩ := hc.halted_eq_or_hlt.resolve_left hne
      exact ⟨hk, rfl⟩

/-! ### Two states that fetch alike -/

/-- A step as one equation: its checks in the order of R100 to R102. -/
theorem step_eq (s : State) :
    step s =
      if s.ended then .next s
      else if 256 ≤ s.pc.toNat then .next (s.raiseFault .fetchOob s.pc)
      else if s.pc.toNat = 255 ∧ s.kindAtPc.needsArg then .next (s.raiseFault .argOob (s.pc + 1))
      else exec (Instr.ofKind s.kindAtPc s.argumentByte) s := by
  rcases step_cases s with ⟨he, hs⟩ | ⟨he, hpc, hs⟩ | ⟨he, hpc, hk, hs⟩ | ⟨he, hpc, hk, hs⟩
  · rw [hs, if_pos he]
  · simp [hs, he, hpc]
  · simp [hs, he, hpc, hk]
  · have harg : ¬(s.pc.toNat = 255 ∧ s.kindAtPc.needsArg = true) := fun ⟨h255, hn⟩ => by have := hk hn; omega
    rw [hs, if_neg (by simp [he]), if_neg (by omega), if_neg harg]

/-- The pieces of state that decide whether a step executes, and what: program counter, memory, halted bit and fault
record. -/
structure FetchAlike (s u : State) : Prop where
  pc : u.pc = s.pc
  mem : u.mem = s.mem
  halted : u.halted = s.halted
  fault : u.fault = s.fault

namespace FetchAlike

variable {s u : State} (h : FetchAlike s u)

include h

theorem ended : u.ended = s.ended := by
  rw [State.ended, State.ended, h.halted, h.fault]

theorem kindAtPc : u.kindAtPc = s.kindAtPc := by
  rw [State.kindAtPc, State.kindAtPc, State.opcodeByte, State.opcodeByte, h.pc, State.memRead_congr h.mem]

theorem argumentByte : u.argumentByte = s.argumentByte := by
  rw [State.argumentByte, State.argumentByte, h.pc, State.memRead_congr h.mem]

/-- States that fetch alike hold together, record the same fault, or execute the same instruction. -/
theorem step_cases :
    (s.ended = true ∧ step s = .next s ∧ step u = .next u) ∨
    (∃ cause info, step s = .next (s.raiseFault cause info) ∧ step u = .next (u.raiseFault cause info)) ∨
    (step s = exec (Instr.ofKind s.kindAtPc s.argumentByte) s ∧
      step u = exec (Instr.ofKind s.kindAtPc s.argumentByte) u) := by
  rw [step_eq s, step_eq u, h.ended, h.kindAtPc, h.argumentByte, h.pc]
  split_ifs
  · exact .inl ⟨‹_›, rfl, rfl⟩
  · exact .inr (.inl ⟨_, _, rfl, rfl⟩)
  · exact .inr (.inl ⟨_, _, rfl, rfl⟩)
  · exact .inr (.inr ⟨rfl, rfl⟩)

end FetchAlike

/-! ### Pieces of state a step does not read -/

/-- A branch does not look at the history. -/
theorem branch_withHist (taken : Bool) (target : Byte) (s : State) (h : Vector Byte Config.histDepth) :
    branch taken target { s with hist := h } = { branch taken target s with hist := h } := by
  cases taken <;> rfl

/-- A branch does not look at the ports. -/
theorem branch_withPorts (taken : Bool) (target : Byte) (s : State) (ps : List Byte) :
    branch taken target { s with ports := ps } = { branch taken target s with ports := ps } := by
  cases taken <;> rfl

/-- R31: executing an instruction with another history differs in the history only. -/
theorem exec_withHist {i : Instr} {s t : State} (h : Vector Byte Config.histDepth) (hx : exec i s = .next t) :
    ∃ h', exec i { s with hist := h } = .next { t with hist := h' } := by
  cases i
  case inp port =>
    rcases s.portRead_cases port with ⟨v, hv⟩ | hp
    · cases hx.symm.trans (exec_inp_of_port hv)
      exact ⟨h, exec_inp_of_port hv⟩
    · cases hx.symm.trans (exec_inp_of_no_port hp)
      exact ⟨h, exec_inp_of_no_port hp⟩
  case jmp | jn | jz | jnz => cases hx; exact ⟨h, congrArg _ (branch_withHist _ _ s h)⟩
  all_goals cases hx; exact ⟨_, rfl⟩

/-- Settles O39: the two states fetch alike, and no instruction reads the history. -/
theorem historyIsNeverRead : Obligations.HistoryIsNeverRead := by
  intro s t h hs
  have halike : FetchAlike s { s with hist := h } := ⟨rfl, rfl, rfl, rfl⟩
  rcases halike.step_cases with ⟨_, es, eu⟩ | ⟨cause, info, es, eu⟩ | ⟨es, eu⟩
  · cases hs.symm.trans es
    exact ⟨h, eu⟩
  · cases hs.symm.trans es
    exact ⟨h, eu⟩
  · rw [eu]
    exact exec_withHist h (es.symm.trans hs)

/-- R30: executing a kind other than IN with other ports differs in the ports only. -/
theorem exec_withPorts {k : Kind} {arg : Byte} {s t : State} (ps : List Byte) (hk : k ≠ .inp)
    (hx : exec (Instr.ofKind k arg) s = .next t) :
    exec (Instr.ofKind k arg) { s with ports := ps } = .next { t with ports := ps } := by
  cases k
  case inp => exact absurd rfl hk
  case jmp | jn | jz | jnz => cases hx; exact congrArg _ (branch_withPorts _ _ s ps)
  all_goals cases hx; rfl

/-- Settles O40: the two states fetch alike, and no kind but IN reads the ports. -/
theorem portsReachOnlyIn : Obligations.PortsReachOnlyIn := by
  intro s t ps hs hk
  have halike : FetchAlike s { s with ports := ps } := ⟨rfl, rfl, rfl, rfl⟩
  rcases halike.step_cases with ⟨_, es, eu⟩ | ⟨cause, info, es, eu⟩ | ⟨es, eu⟩
  · cases hs.symm.trans es
    exact eu
  · cases hs.symm.trans es
    exact eu
  · rw [eu]
    exact exec_withPorts ps hk (es.symm.trans hs)

/-- R21: LDA, LDI and an IN that completes write the accumulator without reading it. -/
theorem exec_setAcc_of_writer {k : Kind} {arg v : Byte} {s t : State} (hk : k ∈ [Kind.lda, .ldi, .inp])
    (hx : exec (Instr.ofKind k arg) s = .next t) (hvalid : t.fault.valid = false) :
    exec (Instr.ofKind k arg) (s.setAcc v) = .next t := by
  simp only [List.mem_cons, List.not_mem_nil, or_false] at hk
  rcases hk with rfl | rfl | rfl
  · exact hx
  · exact hx
  · rcases s.portRead_cases arg with ⟨w, hw⟩ | hp
    · exact (exec_inp_of_port (s := s.setAcc v) hw).trans ((exec_inp_of_port hw).symm.trans hx)
    · cases hx.symm.trans (exec_inp_of_no_port hp)
      simp at hvalid

/-- R21: NOP, JMP and HLT carry the accumulator over. -/
theorem exec_setAcc_of_carrier {k : Kind} {arg v : Byte} {s t : State} (hk : k ∈ [Kind.nop, .jmp, .hlt])
    (hx : exec (Instr.ofKind k arg) s = .next t) :
    exec (Instr.ofKind k arg) (s.setAcc v) = .next (t.setAcc v) := by
  simp only [List.mem_cons, List.not_mem_nil, or_false] at hk
  rcases hk with rfl | rfl | rfl <;> cases hx <;> rfl

/-- Settles O38: the two states fetch alike, a recorded fault is excluded, and the six kinds do not read the
accumulator. -/
theorem accumulatorReachesOnlyItsReaders : Obligations.AccumulatorReachesOnlyItsReaders := by
  intro s t v hs he hvalid
  have halike : FetchAlike s (s.setAcc v) := ⟨rfl, rfl, rfl, rfl⟩
  rcases halike.step_cases with ⟨he', es, eu⟩ | ⟨cause, info, es, eu⟩ | ⟨es, eu⟩
  · simp [he] at he'
  · cases hs.symm.trans es
    simp at hvalid
  · rw [eu]
    exact ⟨fun hk => exec_setAcc_of_writer hk (es.symm.trans hs) hvalid,
      fun hk => exec_setAcc_of_carrier hk (es.symm.trans hs)⟩

end Sys2Proof.Machine

end

/-! ## State family: construction, reset and the clocked block -/

section

namespace Sys2Proof.Machine

/-! ### Construction -/

/-- Construction from parameters inside the bounds of R39. -/
theorem construct_of_bounds {b : Config.Build} (himg : b.image.length ≤ 256) (h1 : 1 ≤ b.ports.length)
    (h256 : b.ports.length ≤ 256) : construct b = .next (State.resetWith b.image b.ports) := by
  simp [construct, Config.Build.imageFits, Config.Build.portsFit, Config.memSize, Config.maxInPorts, himg, h1, h256]

/-- A constructed state is the reset state of parameters inside the bounds of R39. -/
theorem bounds_of_construct {b : Config.Build} {s : State} (h : construct b = .next s) :
    b.image.length ≤ 256 ∧ (1 ≤ b.ports.length ∧ b.ports.length ≤ 256) ∧ s = State.resetWith b.image b.ports := by
  unfold construct at h
  split_ifs at h with himg hports
  cases h
  simp only [Config.Build.imageFits, Config.Build.portsFit, Bool.and_eq_true, decide_eq_true_eq] at himg hports
  exact ⟨himg, hports, rfl⟩

/-- Memory after reset holds the image from address 0 and zeros behind it (R38). -/
theorem State.memRead_resetWith (image ports : List Byte) (a : Byte) :
    (State.resetWith image ports).memRead a = if h : a.toNat < image.length then image[a.toNat] else 0 := by
  rw [State.memRead, State.resetWith_mem, Memory.read_ofImage]
  simp

/-- Settles O1: construction inside the bounds gives `State.resetWith`, field by field. -/
theorem constructionGivesTheResetState : Obligations.ConstructionGivesTheResetState := by
  intro b himg h1 h256
  refine ⟨_, construct_of_bounds himg h1 h256, rfl, rfl, State.memRead_resetWith b.image b.ports, fun i hi => ?_,
    rfl, rfl, rfl⟩
  rw [State.resetWith_hist, Vector.getElem_replicate]

/-- Settles O5: `Block.build` wraps the constructed state at a step boundary. -/
theorem wellFormedBuildsGiveTheirBlock : Obligations.WellFormedBuildsGiveTheirBlock := by
  intro b himg h1 h256
  have hc := construct_of_bounds himg h1 h256
  exact ⟨⟨b.image, State.resetWith b.image b.ports, none, false⟩, by simp [Block.build, hc], hc, rfl, rfl, rfl, rfl⟩

/-- Every reset state of parameters inside the bounds of R39 meets the invariant. -/
theorem State.inv_resetWith {image ports : List Byte} (himg : image.length ≤ 256)
    (hports : 1 ≤ ports.length ∧ ports.length ≤ 256) : (State.resetWith image ports).Inv where
  memCanonical := Memory.wf_ofImage himg
  pcReachable := by simp
  portCount := hports
  faultFits := ⟨rfl, rfl⟩
  notBoth := by simp
  haltedBehindHlt := by simp

/-- Settles O46: a constructed state is a reset state of parameters inside the bounds. -/
theorem invariantHoldsAfterConstruction : Obligations.InvariantHoldsAfterConstruction := by
  intro b s h
  obtain ⟨himg, hports, rfl⟩ := bounds_of_construct h
  exact State.inv_resetWith himg hports

/-- `State.reset` is the reset state of the empty image and 256 zero ports. -/
theorem State.reset_eq_resetWith : State.reset = State.resetWith [] (List.replicate Config.inPorts 0) := rfl

/-- Settles O45: `State.reset` is a reset state of parameters inside the bounds. -/
theorem invariantHoldsAtReset : Obligations.InvariantHoldsAtReset := by
  rw [Obligations.InvariantHoldsAtReset, State.reset_eq_resetWith]
  have hports : (List.replicate Config.inPorts (0 : Byte)).length = 256 := List.length_replicate
  exact State.inv_resetWith (Nat.zero_le _) ⟨by omega, by omega⟩

/-! ### One clock edge -/

/-- Settles O4: the reset edge takes the driven ports, so an IN behind it reads them; every other edge of a step goes
through `Block.advance`, which refuses changed ports. -/
theorem hostMayChangeThePortsOnlyAtReset : Obligations.HostMayChangeThePortsOnlyAtReset := by
  refine fun i k => ⟨fun hr hl => ⟨_, Block.edge_reset hr hl, fun port hp => ?_⟩,
    fun hr hl => Block.edge_reset_count hr hl, fun hr hne hstep => ?_⟩
  · exact ⟨_, exec_inp_of_port (List.getElem?_eq_getElem hp), rfl⟩
  · rcases hp : k.pending with _ | n
    · obtain ⟨hen, hrun⟩ := hstep.resolve_left (not_not.2 hp)
      rw [Block.edge_begin hr hp hen (State.ended_eq_false.2 hrun)]
      exact Block.advance_changed hne _
    · rw [Block.edge_pending hr hp]
      exact Block.advance_changed hne n

/-- Every step answers a next state (R105). -/
theorem step_next (s : State) : ∃ t, step s = .next t := by
  rcases step_cases s with ⟨_, h⟩ | ⟨_, _, h⟩ | ⟨_, _, _, h⟩ | ⟨_, _, _, h⟩
  · exact ⟨_, h⟩
  · exact ⟨_, h⟩
  · exact ⟨_, h⟩
  · rw [h]; exact exec_next _ _

/-- An edge of a step with `n` edges to come, the ports held: the last one commits, the others count down (R43). -/
theorem Block.advance_held (k : Block) (n : Nat) :
    (n ≤ 1 → ∃ k', k.advance k.core.ports n = .next k' ∧ k'.image = k.image ∧ step k.core = .next k'.core ∧
      k'.pending = none ∧ k'.retire = true) ∧
    (1 < n → ∃ k', k.advance k.core.ports n = .next k' ∧ k'.image = k.image ∧ k'.core = k.core ∧
      k'.pending = some (n - 1) ∧ k'.retire = false) := by
  refine ⟨fun hn => ?_, fun hn => ⟨_, Block.advance_count hn, rfl, rfl, rfl, rfl⟩⟩
  obtain ⟨t, ht⟩ := step_next k.core
  exact ⟨_, (Block.advance_last hn).trans (Block.commit_of_step ht), rfl, ht, rfl, rfl⟩

/-- Settles O52: `Block.edge` chooses by `rst` and `pending`, and each choice has its law. -/
theorem clockEdgeResetsAdvancesBeginsOrHolds : Obligations.ClockEdgeResetsAdvancesBeginsOrHolds := by
  refine fun i k => ⟨fun hr hl => ⟨_, Block.edge_reset hr hl, rfl, rfl, rfl, rfl⟩, fun hr hin n hn => ?_,
    fun hr hp hhold => ?_⟩
  · have hedge : k.edge i = k.advance k.core.ports n := by
      rcases hn with hp | ⟨hp, hen, hh, hv, rfl⟩
      · rw [Block.edge_pending hr hp, hin]
      · rw [Block.edge_begin hr hp hen (State.ended_eq_false.2 ⟨hh, hv⟩), hin]
    rw [hedge]
    exact k.advance_held n
  · exact ⟨_, Block.edge_hold hr hp (hhold.imp_right State.ended_eq_true.2), rfl, rfl, hp, rfl⟩

/-- What an answered edge of a running block did to its core: one step, counted by `retire_o`, or nothing. -/
def Block.StepsOrHolds (k k' : Block) : Prop :=
  k'.image = k.image ∧
    ((k'.retire = true ∧ step k.core = .next k'.core) ∨ (k'.retire = false ∧ k'.core = k.core))

theorem Block.advance_outcome (k : Block) (inPort : List Byte) (n : Nat) :
    (∃ k', k.advance inPort n = .next k' ∧ k.StepsOrHolds k') ∨
    (k.advance inPort n = .refused .portsChangedDuringRun ∧ inPort ≠ k.core.ports) := by
  by_cases hin : inPort = k.core.ports
  · subst hin
    rcases Nat.lt_or_ge 1 n with hn | hn
    · obtain ⟨k', h, himg, hcore, _, hret⟩ := (k.advance_held n).2 hn
      exact .inl ⟨k', h, himg, .inr ⟨hret, hcore⟩⟩
    · obtain ⟨k', h, himg, hstep, _, hret⟩ := (k.advance_held n).1 hn
      exact .inl ⟨k', h, himg, .inl ⟨hret, hstep⟩⟩
  · exact .inr ⟨Block.advance_changed hin n, hin⟩

/-- An edge without reset steps the core, holds it, or is refused because the host changed `in_port` (R43, I10). -/
theorem Block.edge_outcome {i : EdgeInputs} (k : Block) (hr : i.rst = false) :
    (∃ k', k.edge i = .next k' ∧ k.StepsOrHolds k') ∨
    (k.edge i = .refused .portsChangedDuringRun ∧ i.inPort ≠ k.core.ports) := by
  rcases hp : k.pending with _ | n
  · by_cases hbegin : i.en = true ∧ k.core.ended = false
    · rw [Block.edge_begin hr hp hbegin.1 hbegin.2]
      exact k.advance_outcome _ _
    · have hhold : i.en = false ∨ k.core.ended = true := (not_and_or.1 hbegin).imp (by simp) (by simp)
      exact .inl ⟨_, Block.edge_hold hr hp hhold, rfl, .inr ⟨rfl, rfl⟩⟩
  · rw [Block.edge_pending hr hp]
    exact k.advance_outcome _ _

/-- No step changes the ports (R30). -/
theorem step_ports {s t : State} (h : step s = .next t) : t.ports = s.ports :=
  (onlyItsWritersChangeAPieceOfState s t h).1

theorem Block.StepsOrHolds.ports_eq {k k' : Block} (h : k.StepsOrHolds k') : k'.core.ports = k.core.ports := by
  obtain ⟨_, ⟨_, hstep⟩ | ⟨_, hcore⟩⟩ := h
  · exact step_ports hstep
  · rw [hcore]

/-- Settles O54: a reset edge gives a reset state inside the bounds; every other edge steps the core or holds it. -/
theorem edgesKeepTheBlockWellFormed : Obligations.EdgesKeepTheBlockWellFormed := by
  intro i k k' hinv himg h
  cases hr : i.rst with
  | true =>
    by_cases hl : i.inPort.length = k.core.ports.length
    · cases h.symm.trans (Block.edge_reset hr hl)
      exact ⟨State.inv_resetWith himg (hl ▸ hinv.portCount), rfl, hl⟩
    · cases h.symm.trans (Block.edge_reset_count hr hl)
  | false =>
    rcases k.edge_outcome hr with ⟨k₁, hedge, hk⟩ | ⟨hedge, _⟩
    · cases h.symm.trans hedge
      refine ⟨?_, hk.1, by rw [hk.ports_eq]⟩
      obtain ⟨_, ⟨_, hstep⟩ | ⟨_, hcore⟩⟩ := hk
      · exact stepKeepsTheInvariant _ _ hinv hstep
      · exact hcore ▸ hinv
    · cases h.symm.trans hedge

/-! ### Sequences of edges -/

theorem State.steps_succ {s t : State} (h : step s = .next t) (m : Nat) : s.steps (m + 1) = t.steps m := by
  simp [State.steps, h]

/-- One more edge in front steps the core exactly when `retire_o` counts it. -/
theorem Block.StepsOrHolds.steps_cons {k k' : Block} (h : k.StepsOrHolds k') (m : Nat) :
    k.core.steps (m + if k'.retire then 1 else 0) = k'.core.steps m := by
  obtain ⟨_, ⟨hret, hstep⟩ | ⟨hret, hcore⟩⟩ := h
  · simp [hret, State.steps_succ hstep]
  · simp [hret, hcore]

theorem Block.edges_cons {i : EdgeInputs} {k k' : Block} (h : k.edge i = .next k') (is : List EdgeInputs) (n : Nat) :
    k.edges (i :: is) n = k'.edges is (n + if k'.retire then 1 else 0) := by
  simp only [Block.edges, h]
  split <;> rfl

/-- Settles O53, by induction on the edges: each steps the core as often as it is counted, or is refused. -/
theorem clockingAddsNothingToTheSteps : Obligations.ClockingAddsNothingToTheSteps := by
  intro is
  induction is with
  | nil => exact fun k n _ => .inl ⟨k, 0, rfl, rfl, rfl, le_rfl⟩
  | cons i is ih =>
    intro k n hrst
    obtain ⟨hr, hrs⟩ := List.forall_mem_cons.1 hrst
    rcases k.edge_outcome hr with ⟨k₁, hedge, hk⟩ | ⟨hedge, hin⟩
    · rw [Block.edges_cons hedge]
      rcases ih k₁ (n + if k₁.retire then 1 else 0) hrs with ⟨k', m, hedges, himg, hsteps, hm⟩ | ⟨hedges, j, hj, hne⟩
      · refine .inl ⟨k', m + if k₁.retire then 1 else 0, ?_, himg.trans hk.1, (hk.steps_cons m).trans hsteps, ?_⟩
        · rw [hedges, Nat.add_assoc, Nat.add_comm m]
        · rw [List.length_cons]; split <;> omega
      · exact .inr ⟨hedges, j, List.mem_cons_of_mem i hj, hk.ports_eq ▸ hne⟩
    · exact .inr ⟨by simp [Block.edges, hedge], i, List.mem_cons_self, hin⟩

/-! ### The inspection outputs -/

/-- Settles O51: at a boundary the outputs are `State.outputs`, a view of the core. -/
theorem outputsShowTheStateAtStepBoundaries : Obligations.OutputsShowTheStateAtStepBoundaries := by
  intro k
  refine ⟨fun hp => ?_, fun n hp => by simp [Block.outputs, hp]⟩
  refine ⟨k.core.outputs, by simp [Block.outputs, hp], rfl, rfl, rfl, rfl, ?_, rfl, rfl, fun a => rfl⟩
  cases hc : k.core.fault.cause <;> simp [State.outputs, FaultCause.code, hc]

end Sys2Proof.Machine

end

/-! ## Memory family: what reads and fetches give after stores -/

section

namespace Sys2Proof.Machine

/-! ### Reads after stores -/

/-- Settles O41, by induction on the stores from the latest one back: it decides the read at its own address, and is
not seen at any other. -/
theorem readGivesTheLatestStore : Obligations.ReadGivesTheLatestStore := by
  intro stores s a
  induction stores using List.reverseRecOn with
  | nil => rfl
  | append_singleton earlier w ih =>
    rw [List.foldl_append, List.foldl_cons, List.foldl_nil, List.reverse_concat, State.memRead_memWrite, ih]
    by_cases hw : w.1 = a
    · simp [hw]
    · simp [hw, Ne.symm hw]

/-! ### The bytes a step fetches, and the step they lead to -/

@[simp] theorem State.advance_memRead (s : State) (n : PcWord) (a : Byte) : (s.advance n).memRead a = s.memRead a := rfl

@[simp] theorem State.advance_ended (s : State) (n : PcWord) : (s.advance n).ended = s.ended := rfl

@[simp] theorem State.memWrite_ended (s : State) (a v : Byte) : (s.memWrite a v).ended = s.ended := rfl

/-- R61: the opcode byte is read from the address the program counter names. -/
theorem State.opcodeByte_eq_memRead {s : State} {a : Byte} (h : a.toNat = s.pc.toNat) :
    s.opcodeByte = s.memRead a := by
  have ha : s.pc.setWidth 8 = a := BitVec.eq_of_toNat_eq (by simp; omega)
  rw [State.opcodeByte, ha]

/-- R63: the argument byte is read from the address behind the program counter. -/
theorem State.argumentByte_eq_memRead {s : State} {a : Byte} (h : a.toNat = s.pc.toNat + 1) :
    s.argumentByte = s.memRead a := by
  have ha : (s.pc + 1).setWidth 8 = a := BitVec.eq_of_toNat_eq (by simp; omega)
  rw [State.argumentByte, ha]

/-- A step of a running state executes what the fetched bytes decode to (R100). -/
theorem step_of_fetch {s : State} {bytes : List Byte} {i : Instr} (he : s.ended = false) (hf : s.fetch = .ok bytes)
    (hd : decode bytes = .ok (i, [])) : step s = exec i s := by
  simp [step, he, hf, execBytes, hd]

/-- An opcode byte that decodes by itself is of Format A. -/
theorem needsArg_of_decode_one {op : Byte} {i : Instr} (h : decode [op] = .ok (i, [])) :
    (Kind.ofOpcode op).needsArg = false := by
  cases hk : (Kind.ofOpcode op).needsArg with
  | false => rfl
  | true => simp [decode, hk] at h

/-- An opcode byte that decodes with the byte behind it, none left over, is of Format B. -/
theorem needsArg_of_decode_two {op arg : Byte} {i : Instr} (h : decode [op, arg] = .ok (i, [])) :
    (Kind.ofOpcode op).needsArg = true := by
  cases hk : (Kind.ofOpcode op).needsArg with
  | false => simp [decode_formatA hk] at h
  | true => rfl

theorem step_of_decode_one {s : State} {i : Instr} (he : s.ended = false) (hpc : s.pc.toNat ≤ 255)
    (h : decode [s.opcodeByte] = .ok (i, [])) : step s = exec i s :=
  step_of_fetch he (State.fetch_formatA hpc (needsArg_of_decode_one h)) h

theorem step_of_decode_two {s : State} {i : Instr} (he : s.ended = false) (hpc : s.pc.toNat ≤ 254)
    (h : decode [s.opcodeByte, s.argumentByte] = .ok (i, [])) : step s = exec i s :=
  step_of_fetch he (State.fetch_formatB hpc (needsArg_of_decode_two h)) h

/-- A two-byte kind at 255 faults with the address behind memory as info (R102). -/
theorem step_argOob {s : State} (he : s.ended = false) (hpc : s.pc.toNat = 255)
    (hk : (Kind.ofOpcode s.opcodeByte).needsArg = true) : step s = .next (s.raiseFault .argOob 256) := by
  have hinfo : s.pc + 1 = 256 := BitVec.eq_of_toNat_eq (by simp [hpc])
  simp only [step, he, State.fetch_argOob hpc hk, hinfo]
  rfl

/-- A state that presents a two-byte instruction of kind `k` executes it. -/
theorem step_of_presentsB {s : State} {k : Kind} {arg : Byte} (h : s.presentsB k.nibble.toNat arg) :
    step s = exec (Instr.ofKind k arg) s := by
  obtain ⟨he, hpc, hop, harg⟩ := h
  have hk : s.kindAtPc = k := Kind.ofOpcode_eq hop
  rw [step_eq, if_neg (by simp [he]), if_neg (by omega), if_neg (by omega), hk, harg]

/-! ### The fetch behind a store -/

/-- The state behind a completed STA to `addr` (R120). -/
def State.storeAcc (s : State) (addr : Byte) : State :=
  (s.memWrite addr s.acc).advance 2

theorem step_sta {s : State} {addr : Byte} (h : s.presentsB 0x1 addr) : step s = .next (s.storeAcc addr) :=
  step_of_presentsB (k := .sta) h

theorem State.storeAcc_memRead (s : State) (addr a : Byte) :
    (s.storeAcc addr).memRead a = if a = addr then s.acc else s.memRead a := by
  rw [State.storeAcc, State.advance_memRead, State.memRead_memWrite]

@[simp] theorem State.storeAcc_memRead_self (s : State) (addr : Byte) : (s.storeAcc addr).memRead addr = s.acc := by
  rw [State.storeAcc_memRead, if_pos rfl]

theorem State.storeAcc_memRead_of_ne (s : State) {addr a : Byte} (h : a.toNat ≠ addr.toNat) :
    (s.storeAcc addr).memRead a = s.memRead a := by
  rw [State.storeAcc_memRead, if_neg fun e => h (congrArg _ e)]

theorem State.storeAcc_ended {s : State} {addr : Byte} (h : s.presentsB 0x1 addr) :
    (s.storeAcc addr).ended = false := by
  obtain ⟨he, _⟩ := h
  simpa [State.storeAcc] using he

theorem State.storeAcc_pc_toNat {s : State} {addr : Byte} (h : s.presentsB 0x1 addr) :
    (s.storeAcc addr).pc.toNat = s.pc.toNat + 2 := by
  obtain ⟨_, hpc, _⟩ := h
  exact pc_add_toNat (n := 2) (by simp; omega)

/-- The low byte of the program counter, moved on inside memory, names the cell moved on to. -/
theorem pc_setWidth_add_toNat {pc : PcWord} {n : Byte} (h : pc.toNat + n.toNat ≤ 255) :
    (pc.setWidth 8 + n).toNat = pc.toNat + n.toNat := by
  rw [BitVec.toNat_add, BitVec.toNat_setWidth]
  omega

/-- A store to the next opcode byte: the next step executes or faults by the stored byte (R74). -/
theorem step_of_stored_opcode {s : State} {addr : Byte} (h : s.presentsB 0x1 addr)
    (ha : addr.toNat = s.pc.toNat + 2) :
    (s.storeAcc addr).opcodeByte = s.acc ∧
    (∀ i, decode [s.acc] = .ok (i, []) → step (s.storeAcc addr) = exec i (s.storeAcc addr)) ∧
    (s.pc.toNat ≤ 252 → ∀ i, decode [s.acc, s.memRead (s.pc.setWidth 8 + 3)] = .ok (i, []) →
      step (s.storeAcc addr) = exec i (s.storeAcc addr)) ∧
    (s.pc.toNat = 253 → (Kind.ofOpcode s.acc).needsArg = true →
      step (s.storeAcc addr) = .next ((s.storeAcc addr).raiseFault .argOob 256)) := by
  have he := State.storeAcc_ended h
  have hpc := State.storeAcc_pc_toNat h
  have hop : (s.storeAcc addr).opcodeByte = s.acc := by
    rw [State.opcodeByte_eq_memRead (ha.trans hpc.symm), State.storeAcc_memRead_self]
  refine ⟨hop, fun i hd => ?_, fun h252 i hd => ?_, fun h253 hk => ?_⟩
  · exact step_of_decode_one he (by omega) (hop ▸ hd)
  · have hnext : (s.pc.setWidth 8 + 3 : Byte).toNat = s.pc.toNat + 3 := pc_setWidth_add_toNat (by simp; omega)
    have harg : (s.storeAcc addr).argumentByte = s.memRead (s.pc.setWidth 8 + 3) := by
      rw [State.argumentByte_eq_memRead (a := s.pc.setWidth 8 + 3) (by omega),
        State.storeAcc_memRead_of_ne s (by omega)]
    exact step_of_decode_two he (by omega) (by rw [hop, harg]; exact hd)
  · exact step_argOob he (by omega) (hop ▸ hk)

/-- A store to the next argument byte: the next step executes the old opcode byte with the stored byte (R74). -/
theorem step_of_stored_argument {s : State} {addr : Byte} (h : s.presentsB 0x1 addr)
    (ha : addr.toNat = s.pc.toNat + 3) :
    (s.storeAcc addr).argumentByte = s.acc ∧
    ∀ i, decode [s.memRead (s.pc.setWidth 8 + 2), s.acc] = .ok (i, []) →
      step (s.storeAcc addr) = exec i (s.storeAcc addr) := by
  have hpc := State.storeAcc_pc_toNat h
  have harg : (s.storeAcc addr).argumentByte = s.acc := by
    rw [State.argumentByte_eq_memRead (a := addr) (by omega), State.storeAcc_memRead_self]
  refine ⟨harg, fun i hd => ?_⟩
  have hnext : (s.pc.setWidth 8 + 2 : Byte).toNat = s.pc.toNat + 2 := pc_setWidth_add_toNat (by simp; omega)
  have hop : (s.storeAcc addr).opcodeByte = s.memRead (s.pc.setWidth 8 + 2) := by
    rw [State.opcodeByte_eq_memRead (a := s.pc.setWidth 8 + 2) (by omega), State.storeAcc_memRead_of_ne s (by omega)]
  exact step_of_decode_two (State.storeAcc_ended h) (by omega) (by rw [hop, harg]; exact hd)

/-- Settles O43: STA leads to `State.storeAcc`, whose next fetch reads the stored byte as opcode or as argument. -/
theorem storeIsSeenByTheNextFetch : Obligations.StoreIsSeenByTheNextFetch := fun s addr h =>
  ⟨s.storeAcc addr, step_sta h, s.storeAcc_memRead_self addr, State.storeAcc_pc_toNat h, step_of_stored_opcode h,
    step_of_stored_argument h⟩

end Sys2Proof.Machine

end

/-! ## Encoding family: decoding and encoding

`decode` looks at the kind of the opcode byte alone, and the kind decides whether one more byte is taken. Each statement
about single bytes is read off `decode_of_kind`, its converse `decode_ok`, or `decode_two`. -/

section

namespace Sys2Proof

/-! ### Kinds and their opcode bytes -/

/-- R84: an opcode byte names the kind whose number is its high nibble. -/
theorem Kind.ofOpcode_eq_iff {op : Byte} {k : Kind} : Kind.ofOpcode op = k ↔ op.toNat / 16 = k.nibble.toNat :=
  ⟨fun h => h ▸ (Kind.ofOpcode_nibble op).symm, Kind.ofOpcode_eq⟩

/-- R90: the canonical opcode byte is the number of the kind, shifted by four. -/
theorem Kind.opcode_toNat (k : Kind) : k.opcode.toNat = 16 * k.nibble.toNat := by
  cases k <;> rfl

/-- The canonical opcode byte of the kind a byte names is that byte with its low nibble cleared. -/
theorem Kind.opcode_ofOpcode : ∀ op : Byte, (Kind.ofOpcode op).opcode = op &&& 0xF0 := by
  decide +kernel

/-- R82: the kinds of one byte, by number. -/
theorem Kind.needsArg_eq_false_iff (k : Kind) :
    k.needsArg = false ↔
      k.nibble.toNat = 0 ∨ k.nibble.toNat = 6 ∨ k.nibble.toNat = 13 ∨ k.nibble.toNat = 15 := by
  cases k <;> decide

/-! ### Instructions by kind and argument byte -/

@[simp] theorem Instr.ofKind_kind (k : Kind) (arg : Byte) : (Instr.ofKind k arg).kind = k := by
  cases k <;> rfl

/-- An instruction has an argument byte exactly when its kind is of Format B (R80). -/
theorem Instr.ofKind_arg (k : Kind) (arg : Byte) :
    (Instr.ofKind k arg).arg = if k.needsArg then some arg else none := by
  cases k <;> rfl

/-- The kinds of one byte do not look at an argument (R83). -/
theorem Instr.ofKind_formatA {k : Kind} (h : k.needsArg = false) (arg arg' : Byte) :
    Instr.ofKind k arg = Instr.ofKind k arg' := by
  cases k
  case nop | not | out | hlt => rfl
  all_goals cases h

/-- An instruction is its kind alone, or its kind with its argument byte (R80). -/
theorem Instr.format_cases (i : Instr) :
    (i.kind.needsArg = false ∧ i.arg = none ∧ Instr.ofKind i.kind 0 = i) ∨
    ∃ arg, i.kind.needsArg = true ∧ i.arg = some arg ∧ Instr.ofKind i.kind arg = i := by
  cases i
  case nop | not | out | hlt => exact .inl ⟨rfl, rfl, rfl⟩
  all_goals exact .inr ⟨_, rfl, rfl, rfl⟩

/-! ### What the decoder answers -/

/-- Any opcode byte of an instruction's kind, with its argument byte behind it, decodes to the instruction. -/
theorem decode_of_kind {op : Byte} {i : Instr} (h : Kind.ofOpcode op = i.kind) (rest : List Byte) :
    decode (op :: (i.arg.toList ++ rest)) = .ok (i, rest) := by
  rcases i.format_cases with ⟨hk, harg, hi⟩ | ⟨arg, hk, harg, hi⟩
  · rw [harg, Option.toList_none, List.nil_append, decode_formatA (h ▸ hk), h, hi]
  · rw [harg, Option.toList_some, List.singleton_append, decode_formatB (h ▸ hk), h, hi]

/-- What bytes that decode say: the opcode byte names the kind, and the argument byte and the rest stand behind it. -/
theorem decode_ok {op : Byte} {tail rest : List Byte} {i : Instr} (h : decode (op :: tail) = .ok (i, rest)) :
    i.kind = Kind.ofOpcode op ∧ i.arg.toList ++ rest = tail := by
  cases hk : (Kind.ofOpcode op).needsArg with
  | false =>
    cases (decode_formatA hk tail).symm.trans h
    simp [Instr.ofKind_arg, hk]
  | true =>
    cases tail with
    | nil => simp [decode, hk] at h
    | cons arg after =>
      cases (decode_formatB hk arg after).symm.trans h
      simp [Instr.ofKind_arg, hk]

/-- R82, R84: an opcode byte with a byte behind it decodes, and its kind decides whether that byte is taken. -/
theorem decode_two (op arg : Byte) (rest : List Byte) :
    decode (op :: arg :: rest) =
      .ok (Instr.ofKind (Kind.ofOpcode op) arg, if (Kind.ofOpcode op).needsArg then rest else arg :: rest) := by
  cases hk : (Kind.ofOpcode op).needsArg with
  | false => rw [decode_formatA hk, Instr.ofKind_formatA hk 0 arg]; rfl
  | true => rw [decode_formatB hk]; rfl

/-- The decoder looks at the kind of the opcode byte and at nothing else of it (R81). -/
theorem decode_congr {op op' : Byte} (h : Kind.ofOpcode op = Kind.ofOpcode op') (rest : List Byte) :
    decode (op :: rest) = decode (op' :: rest) := by
  simp only [decode, h]

/-! ### Encoding and decoding -/

/-- Settles O6: the canonical opcode byte names the kind of the instruction. -/
theorem decodeInvertsEncode : Obligations.DecodeInvertsEncode :=
  fun i rest _ => decode_of_kind (Kind.ofOpcode_opcode i.kind) rest

/-- Settles O7: what was decoded keeps the kind of the opcode byte and every byte behind it. -/
theorem encodeInvertsDecodeUpToTheLowNibble : Obligations.EncodeInvertsDecodeUpToTheLowNibble := by
  intro op tail rest i h
  obtain ⟨hkind, htail⟩ := decode_ok h
  rw [encode, List.cons_append, htail, hkind, Kind.opcode_ofOpcode]

/-- Settles O8: the kind is the high nibble, and `decode_two` always answers. -/
theorem everyOpcodeByteDecodes : Obligations.EveryOpcodeByteDecodes := by
  refine ⟨fun op k => ?_, fun op arg rest => ⟨_, _, decode_two op arg rest, Instr.ofKind_kind _ _⟩⟩
  rw [Kind.ofOpcode_eq_iff]
  omega

/-- Settles O9: bytes with the same high nibble name the same kind, and execution goes through the decoder. -/
theorem lowNibbleIsIgnored : Obligations.LowNibbleIsIgnored := by
  intro op op' rest h
  have hdecode := decode_congr (Kind.ofOpcode_eq (h.trans (Kind.ofOpcode_nibble op').symm)) rest
  exact ⟨hdecode, fun s => by rw [Machine.execBytes, Machine.execBytes, hdecode]⟩

/-- Settles O10: `decode_two` leaves over what the kind does not take. -/
theorem lengthIsDecidedByTheKind : Obligations.LengthIsDecidedByTheKind := by
  intro op arg rest
  refine ⟨_, _, decode_two op arg rest, ?_⟩
  simp only [← Kind.ofOpcode_nibble op, ← Kind.needsArg_eq_false_iff]
  cases (Kind.ofOpcode op).needsArg <;> simp

/-- One row of R86: what an opcode byte with the number of kind `k` decodes to, and its mnemonic. -/
theorem opcodeMap_row {op : Byte} (k : Kind) (arg : Byte) (h : op.toNat / 16 = k.nibble.toNat) :
    decode [op, arg] = .ok (Instr.ofKind k arg, if k.needsArg then [] else [arg]) ∧
      (Kind.ofOpcode op).mnemonic = k.mnemonic := by
  obtain rfl := Kind.ofOpcode_eq h
  exact ⟨decode_two op arg [], rfl⟩

/-- Settles O11: each row is `opcodeMap_row` of its kind. -/
theorem opcodeMapRowByRow : Obligations.OpcodeMapRowByRow := fun _ arg =>
  ⟨opcodeMap_row .nop arg, opcodeMap_row .sta arg, opcodeMap_row .lda arg, opcodeMap_row .add arg,
    opcodeMap_row .or arg, opcodeMap_row .and arg, opcodeMap_row .not arg, opcodeMap_row .sub arg,
    opcodeMap_row .jmp arg, opcodeMap_row .jn arg, opcodeMap_row .jz arg, opcodeMap_row .jnz arg,
    opcodeMap_row .inp arg, opcodeMap_row .out arg, opcodeMap_row .ldi arg, opcodeMap_row .hlt arg⟩

/-- Settles O12: the decoder computes on each word. -/
theorem specWordsDecode : Obligations.SpecWordsDecode :=
  ⟨rfl, rfl, rfl, rfl, rfl, rfl⟩

/-- Settles O20: `Machine.step_next`, which reads the next state off the cases of a step. -/
theorem everyStateHasASuccessor : Obligations.EveryStateHasASuccessor :=
  Machine.step_next

end Sys2Proof

end

/-! ## Encoding family: the text of one instruction

An assembler reads the text of an instruction back: the mnemonic ends at the first space and the decimal argument stands
behind it, and none of these characters separates two instructions. -/

section

namespace Sys2Proof

namespace Assembly

/-! ### Decimal numbers -/

theorem digitValue_decimalDigit : ∀ n < 10, digitValue 10 (decimalDigit n) = some n := by
  decide

theorem decimalDigit_ne_x : ∀ n < 10, decimalDigit n ≠ 'x' := by
  decide

theorem isSeparator_decimalDigit : ∀ n < 10, isSeparator (decimalDigit n) = false := by
  decide

/-- The number a list of decimal digits stands for. -/
def valueOfDigits (acc : Nat) (ds : List Nat) : Nat :=
  ds.foldl (fun n d => n * 10 + d) acc

/-- The value of a string of decimal digits is the number they stand for. -/
theorem digitsValue_map_decimalDigit {ds : List Nat} (h : ∀ d ∈ ds, d < 10) (acc : Nat) :
    digitsValue 10 acc (ds.map decimalDigit) = some (valueOfDigits acc ds) := by
  induction ds generalizing acc with
  | nil => rfl
  | cons d ds ih =>
    obtain ⟨hd, hds⟩ := List.forall_mem_cons.1 h
    rw [List.map_cons, digitsValue, digitValue_decimalDigit d hd]
    exact ih hds _

/-- A byte in decimal is a string of decimal digits that stand for it. -/
theorem decimal_eq_map_decimalDigit (b : Byte) : ∃ d ds, decimal b = (d :: ds).map decimalDigit ∧
    (∀ x ∈ d :: ds, x < 10) ∧ valueOfDigits 0 (d :: ds) = b.toNat := by
  have hb := b.isLt
  by_cases h10 : b.toNat < 10
  · exact ⟨b.toNat, [], by simp [decimal, h10], by simpa using h10, by simp [valueOfDigits]⟩
  · by_cases h100 : b.toNat < 100
    · refine ⟨b.toNat / 10, [b.toNat % 10], by simp [decimal, h10, h100], ?_, ?_⟩
      · simpa using ⟨by omega, by omega⟩
      · simp only [valueOfDigits, List.foldl]; omega
    · refine ⟨b.toNat / 100, [b.toNat / 10 % 10, b.toNat % 10], by simp [decimal, h10, h100], ?_, ?_⟩
      · simpa using ⟨by omega, by omega, by omega⟩
      · simp only [valueOfDigits, List.foldl]; omega

/-- A digit string with the value of a byte is read as that byte. -/
theorem byteOfDigits_of_value {base : Nat} {c : Char} {cs : List Char} {b : Byte}
    (h : digitsValue base 0 (c :: cs) = some b.toNat) : byteOfDigits base (c :: cs) = some b := by
  simp [byteOfDigits, h, b.isLt]

/-- Text without an `x` is read as a decimal number (R89). -/
theorem parseNumber_of_no_x {cs : List Char} (h : 'x' ∉ cs) : parseNumber cs = byteOfDigits 10 cs := by
  unfold parseNumber
  split
  · simp at h
  · rfl

/-- R89: a byte written in decimal is read back. -/
theorem parseNumber_decimal (b : Byte) : parseNumber (decimal b) = some b := by
  obtain ⟨d, ds, hdecimal, hdigits, hvalue⟩ := decimal_eq_map_decimalDigit b
  have hx : 'x' ∉ (d :: ds).map decimalDigit := by
    intro hx
    obtain ⟨n, hn, h⟩ := List.mem_map.1 hx
    exact decimalDigit_ne_x n (hdigits n hn) h
  rw [hdecimal, parseNumber_of_no_x hx]
  exact byteOfDigits_of_value ((digitsValue_map_decimalDigit hdigits 0).trans (congrArg some hvalue))

theorem isSeparator_of_mem_decimal {b : Byte} {c : Char} (h : c ∈ decimal b) : isSeparator c = false := by
  obtain ⟨d, ds, hdecimal, hdigits, -⟩ := decimal_eq_map_decimalDigit b
  rw [hdecimal] at h
  obtain ⟨n, hn, rfl⟩ := List.mem_map.1 h
  exact isSeparator_decimalDigit n (hdigits n hn)

/-! ### Mnemonics -/

theorem parseMnemonic_mnemonic (k : Kind) : parseMnemonic k.mnemonic = some k := by
  cases k <;> rfl

theorem ne_space_of_mem_mnemonic {k : Kind} : ∀ c ∈ k.mnemonic, (c != ' ') = true := by
  cases k <;> simp [Kind.mnemonic]

theorem isSeparator_of_mem_mnemonic {k : Kind} : ∀ c ∈ k.mnemonic, isSeparator c = false := by
  cases k <;> simp [Kind.mnemonic, isSeparator]

/-! ### One instruction -/

/-- R89: the text of an instruction is read back as that instruction. -/
theorem parseInstr_showInstr (i : Instr) : parseInstr (showInstr i) = some i := by
  rcases i.format_cases with ⟨hk, harg, hi⟩ | ⟨arg, hk, harg, hi⟩
  · have htake : i.kind.mnemonic.takeWhile (· != ' ') = i.kind.mnemonic :=
      List.takeWhile_eq_self_iff.2 ne_space_of_mem_mnemonic
    have hdrop : i.kind.mnemonic.dropWhile (· != ' ') = [] := List.dropWhile_eq_nil_iff.2 ne_space_of_mem_mnemonic
    simpa [showInstr, parseInstr, harg, htake, hdrop, parseMnemonic_mnemonic, hk] using hi
  · have htake : (i.kind.mnemonic ++ ' ' :: decimal arg).takeWhile (· != ' ') = i.kind.mnemonic := by
      rw [List.takeWhile_append_of_pos ne_space_of_mem_mnemonic]
      simp
    have hdrop : (i.kind.mnemonic ++ ' ' :: decimal arg).dropWhile (· != ' ') = ' ' :: decimal arg := by
      rw [List.dropWhile_append_of_pos ne_space_of_mem_mnemonic]
      simp
    simp [showInstr, parseInstr, harg, htake, hdrop, parseMnemonic_mnemonic, hk, parseNumber_decimal, hi]

/-- No character of an instruction's text separates two instructions. -/
theorem isSeparator_of_mem_showInstr {i : Instr} {c : Char} (h : c ∈ showInstr i) : isSeparator c = false := by
  rcases i.format_cases with ⟨-, harg, -⟩ | ⟨arg, -, harg, -⟩
  · simp only [showInstr, harg] at h
    exact isSeparator_of_mem_mnemonic c h
  · simp only [showInstr, harg, List.mem_append, List.mem_cons] at h
    rcases h with h | rfl | h
    · exact isSeparator_of_mem_mnemonic c h
    · rfl
    · exact isSeparator_of_mem_decimal h

/-- The text of an instruction begins with a letter, not with a blank. -/
theorem showInstr_eq_cons (i : Instr) : ∃ c cs, showInstr i = c :: cs ∧ c ≠ ' ' := by
  cases i <;> exact ⟨_, _, rfl, by decide⟩

theorem dropWhile_blank_showInstr (i : Instr) : (showInstr i).dropWhile (· == ' ') = showInstr i := by
  obtain ⟨c, cs, h, hc⟩ := showInstr_eq_cons i
  simp [h, hc]

/-- Text without a separator is one piece. -/
theorem pieces_of_no_separator {cs : List Char} (h : ∀ c ∈ cs, isSeparator c = false) : pieces cs = [cs] := by
  induction cs with
  | nil => rfl
  | cons c cs ih =>
    obtain ⟨hc, hcs⟩ := List.forall_mem_cons.1 h
    simp [pieces, hc, ih hcs]

theorem parse_of_ne_nil {cs : List Char} (h : cs ≠ []) : parse cs = parsePieces (pieces cs) := by
  cases cs with
  | nil => exact absurd rfl h
  | cons c cs => rfl

/-- The text of one instruction is a program of that instruction. -/
theorem parse_showInstr (i : Instr) : parse (showInstr i) = some [i] := by
  have hne : showInstr i ≠ [] := by
    obtain ⟨c, cs, h, -⟩ := showInstr_eq_cons i
    simp [h]
  rw [parse_of_ne_nil hne, pieces_of_no_separator fun _ => isSeparator_of_mem_showInstr]
  simp [parsePieces, dropWhile_blank_showInstr, parseInstr_showInstr]

/-- R90: the assembler emits the canonical bytes. -/
theorem assemble_showInstr (i : Instr) : assemble (showInstr i) = some (encode i) := by
  simp [assemble, parse_showInstr]

/-- R90: the disassembler prints any opcode byte of the instruction's kind as the instruction. -/
theorem disassemble_of_kind {op : Byte} {i : Instr} (h : Kind.ofOpcode op = i.kind) :
    disassemble (op :: i.arg.toList) = .ok (showInstr i) := by
  have hdecode := decode_of_kind h []
  rw [List.append_nil] at hdecode
  rw [disassemble, hdecode]

end Assembly

/-- Settles O13: the canonical opcode byte by `Kind.opcode_toNat`, then the assembler and the disassembler. -/
theorem canonicalEncodings : Obligations.CanonicalEncodings := fun i =>
  ⟨i.kind.opcode, rfl, i.kind.opcode_toNat, Assembly.assemble_showInstr i,
    fun _ h => Assembly.disassemble_of_kind (Kind.ofOpcode_eq h)⟩

end Sys2Proof

end

/-! ## Fetch and execute family: single steps -/

section

namespace Sys2Proof.Machine

/-! ### Ended states and out-of-range fetches -/

/-- R101: a step from an ended state. -/
theorem step_of_ended {s : State} (he : s.ended = true) : step s = .next s := by
  rw [step_eq, if_pos he]

/-- R102: the opcode fetch of a running state with the program counter outside memory. -/
theorem step_fetchOob {s : State} (he : s.ended = false) (hpc : 256 ≤ s.pc.toNat) :
    step s = .next (s.raiseFault .fetchOob s.pc) := by
  rw [step_eq, if_neg (by simp [he]), if_pos hpc]

/-- R183: raising a fault writes the fault record and nothing else. -/
theorem State.raiseFault_sameButFault (s : State) (cause : FaultCause) (info : PcWord) :
    SameButFault s (s.raiseFault cause info) :=
  ⟨rfl, rfl, fun _ => rfl, ⟨rfl, rfl⟩, rfl⟩

/-! ### One-byte kinds -/

/-- A kind of one byte always completes: IN, the only kind that can fault, has two. -/
theorem exec_formatA_completes {k : Kind} (hk : k.needsArg = false) (arg : Byte) (s : State) :
    ∃ t, exec (Instr.ofKind k arg) s = .next t ∧ Completion s arg k t := by
  obtain ⟨t, ht⟩ := exec_next (Instr.ofKind k arg) s
  rcases exec_completes ht with hc | ⟨rfl, _⟩
  · exact ⟨t, ht, hc⟩
  · cases hk

/-- Every kind that jumps has an argument byte, its target. -/
theorem jumpTaken_formatA {k : Kind} (hk : k.needsArg = false) (acc : Byte) : jumpTaken k acc = false := by
  cases k
  case nop | not | out | hlt => rfl
  all_goals cases hk

theorem Completion.pc_toNat_formatA {s t : State} {k : Kind} {arg : Byte} (h : Completion s arg k t)
    (hk : k.needsArg = false) (hpc : s.pc.toNat ≤ 255) : t.pc.toNat = s.pc.toNat + 1 := by
  have hlen : k.length = 1 := by simp [Kind.length, hk]
  simpa [jumpTaken_formatA hk, hlen] using h.pc_toNat (by omega)

/-- A state that presents a one-byte instruction of kind `k` executes it. -/
theorem step_of_presentsA {s : State} {k : Kind} (hk : k.needsArg = false) (h : s.presentsA k.nibble.toNat) :
    step s = exec (Instr.ofKind k 0) s := by
  obtain ⟨he, hpc, hop⟩ := h
  obtain rfl := Kind.ofOpcode_eq hop
  exact step_of_decode_one he hpc (decode_formatA hk [])

/-! ### The statements about one step -/

/-- Settles O16: an ended state is halted or faulted. -/
theorem endedStatesHold : Obligations.EndedStatesHold :=
  fun _ h => step_of_ended (State.ended_eq_true.2 h)

/-- Settles O15: bytes that decode with nothing left over are the bytes the fetch gives. -/
theorem stepRunsTheDecodedInstruction : Obligations.StepRunsTheDecodedInstruction :=
  fun _ _ he _ => ⟨step_of_decode_one he, step_of_decode_two he⟩

/-- Settles O17: the two faults by their laws; a one-byte kind at 255 completes and goes on by one byte. -/
theorem fetchesAreCheckedBeforeTheyAreMade : Obligations.FetchesAreCheckedBeforeTheyAreMade := by
  refine fun s he => ⟨fun hpc => ?_, fun hpc hk => ?_, fun hpc hk => ?_⟩
  · exact ⟨_, step_fetchOob he hpc, rfl, s.raiseFault_sameButFault _ _⟩
  · exact ⟨_, step_argOob he hpc hk, rfl, s.raiseFault_sameButFault _ _⟩
  · have hd := decode_formatA hk []
    obtain ⟨t, ht, hc⟩ := exec_formatA_completes hk 0 s
    have hpc' := hc.pc_toNat_formatA hk hpc.le
    exact ⟨_, t, hd, ht, (step_of_decode_one he hpc.le hd).trans ht, by omega, hc.fault_eq⟩

end Sys2Proof.Machine

end

/-! ## Fetch and execute family: runs

`State.runBounded` ends as the state that `State.steps` reaches: once a run is over, further steps hold its state. -/

section

namespace Sys2Proof.Machine

/-! ### Any number of steps -/

/-- Every number of steps answers a next state. -/
theorem State.steps_next (n : Nat) (s : State) : ∃ t, s.steps n = .next t := by
  induction n generalizing s with
  | zero => exact ⟨s, rfl⟩
  | succ n ih =>
    obtain ⟨u, hu⟩ := step_next s
    rw [State.steps_succ hu]
    exact ih u

theorem State.steps_add {n : Nat} {s t : State} (h : s.steps n = .next t) (m : Nat) :
    s.steps (n + m) = t.steps m := by
  induction n generalizing s with
  | zero => cases h; rw [Nat.zero_add]
  | succ n ih =>
    obtain ⟨u, hu⟩ := step_next s
    rw [State.steps_succ hu] at h
    rw [Nat.add_right_comm, State.steps_succ hu, ih h]

/-- A state that steps to itself is where every number of steps leads. -/
theorem State.steps_of_fixed {s : State} (h : step s = .next s) (n : Nat) : s.steps n = .next s := by
  induction n with
  | zero => rfl
  | succ n ih => rw [State.steps_succ h, ih]

/-! ### The bounded run -/

theorem State.runBounded_of_ended {s : State} (he : s.ended = true) (n : Nat) :
    s.runBounded n = .next (RunEnd.ofState s) := by
  cases n <;> simp [State.runBounded, he]

theorem State.runBounded_succ {s t : State} (he : s.ended = false) (h : step s = .next t) (n : Nat) :
    s.runBounded (n + 1) = t.runBounded n := by
  simp [State.runBounded, he, h]

/-- R106, R107: a bounded run ends as the state that many steps lead to. -/
theorem State.runBounded_of_steps {n : Nat} {s t : State} (h : s.steps n = .next t) :
    s.runBounded n = .next (RunEnd.ofState t) := by
  induction n generalizing s with
  | zero => cases h; rfl
  | succ n ih =>
    cases he : s.ended with
    | true =>
      cases h.symm.trans (State.steps_of_fixed (step_of_ended he) (n + 1))
      exact State.runBounded_of_ended he (n + 1)
    | false =>
      obtain ⟨u, hu⟩ := step_next s
      rw [State.runBounded_succ he hu]
      exact ih ((State.steps_succ hu n).symm.trans h)

theorem RunEnd.ofState_halted {s : State} (h : s.halted = true) : RunEnd.ofState s = .halted s := by
  simp [RunEnd.ofState, h]

theorem RunEnd.ofState_faulted {s : State} (h : s.halted = false) (hv : s.fault.valid = true) :
    RunEnd.ofState s = .faulted s := by
  simp [RunEnd.ofState, h, hv]

theorem RunEnd.ofState_running {s : State} (he : s.ended = false) : RunEnd.ofState s = .boundExceeded s := by
  obtain ⟨h, hv⟩ := State.ended_eq_false.1 he
  simp [RunEnd.ofState, h, hv]

/-- Settles O50: the bounded run ends as the state after that many steps, and `RunEnd.ofState` names that end. -/
theorem boundedRunTellsItsEnd : Obligations.BoundedRunTellsItsEnd := by
  intro n s
  obtain ⟨t, ht⟩ := s.steps_next n
  rw [State.runBounded_of_steps ht]
  refine ⟨t, ht, fun h => ?_, fun h hv => ?_, fun h hv => ?_⟩
  · rw [RunEnd.ofState_halted h]
  · rw [RunEnd.ofState_faulted h hv]
  · rw [RunEnd.ofState_running (State.ended_eq_false.2 ⟨h, hv⟩)]

/-! ### Runs that stay where they are -/

/-- Settles O47: an ended state steps to itself. -/
theorem endedRunsStayWhereTheyAre : Obligations.EndedRunsStayWhereTheyAre := fun n _ he =>
  ⟨State.steps_of_fixed (step_of_ended he) n, State.runBounded_of_ended he n⟩

/-- R146: a JMP to its own address leads back to the state it started from. -/
theorem step_jump_to_itself {s : State} {target : Byte} (h : s.presentsB 0x8 target)
    (ht : target.toNat = s.pc.toNat) : step s = .next s := by
  have hpc : zext9 target = s.pc := BitVec.eq_of_toNat_eq ((zext9_toNat target).trans ht)
  calc step s = .next (s.setPc (zext9 target)) := step_of_presentsB (k := .jmp) h
    _ = .next s := by rw [hpc]; rfl

/-- Settles O49: the state steps to itself, and it is running. -/
theorem jumpToItselfHangs : Obligations.JumpToItselfHangs := by
  intro n s target h ht
  have hsteps := State.steps_of_fixed (step_jump_to_itself h ht) n
  refine ⟨hsteps, ?_⟩
  obtain ⟨he, _⟩ := h
  rw [State.runBounded_of_steps hsteps, RunEnd.ofState_running he]

/-! ### Running off the end of memory -/

theorem step_nop {s : State} (h : s.presentsA 0x0) : step s = .next (s.advance 1) :=
  step_of_presentsA (k := .nop) rfl h

/-- R108: `n` NOP bytes up to the end of memory are run through in `n` steps. -/
theorem State.steps_nops {n : Nat} {s : State} (he : s.ended = false) (hn : s.pc.toNat + n = 256)
    (hmem : ∀ a : Byte, s.pc.toNat ≤ a.toNat → (s.memRead a).toNat / 16 = 0) :
    s.steps n = .next (s.setPc 256) := by
  induction n generalizing s with
  | zero =>
    have hpc : s.pc = 256 := BitVec.eq_of_toNat_eq hn
    rw [← hpc]
    rfl
  | succ n ih =>
    have haddr : (s.pc.setWidth 8 : Byte).toNat = s.pc.toNat := by simp; omega
    have hnop : s.presentsA 0x0 := ⟨he, by omega, hmem _ haddr.ge⟩
    have hpc : (s.advance 1).pc.toNat = s.pc.toNat + 1 := pc_add_toNat (n := 1) (by simp; omega)
    rw [State.steps_succ (step_nop hnop)]
    exact ih he (by omega) fun a ha => hmem a (by omega)

/-- Settles O48: the NOPs lead to the end of memory, and the step from there records FETCH_OOB. -/
theorem nopsRunOffTheEndOfMemory : Obligations.NopsRunOffTheEndOfMemory := by
  intro s he hpc hmem
  have hrun : s.steps (256 - s.pc.toNat) = .next (s.setPc 256) := s.steps_nops he (by omega) hmem
  have hfault : step (s.setPc 256) = .next ((s.setPc 256).raiseFault .fetchOob 256) := step_fetchOob he le_rfl
  refine ⟨hrun, ?_⟩
  rw [State.steps_add hrun, State.steps_succ hfault]
  rfl

end Sys2Proof.Machine

end

/-! ## Data transfer family: STA, LDA and LDI -/

section

namespace Sys2Proof.Machine

/-! ### The state behind a two-byte instruction -/

/-- From inside memory the program counter moves on by 2 without wrapping (R26, R104). -/
theorem State.advance_two_pc_toNat {s : State} (hpc : s.pc.toNat ≤ 254) :
    (s.advance 2).pc.toNat = s.pc.toNat + 2 :=
  pc_add_toNat (n := 2) (by simp; omega)

/-- Writing the accumulator and moving on leaves all else unchanged (R121, R122). -/
theorem State.setAcc_advance_sameButAccPc (s : State) (v : Byte) (n : PcWord) :
    SameButAccPc s ((s.setAcc v).advance n) :=
  ⟨fun _ => rfl, ⟨rfl, rfl⟩, rfl, rfl⟩

/-- A two-byte instruction that answers with a new accumulator and moves on completes: its result, its frame, and the
step from a state that presents it. -/
theorem completes_of_exec_eq_setAcc {k : Kind} {arg v : Byte} {s : State} (hpc : s.pc.toNat ≤ 254)
    (hx : exec (Instr.ofKind k arg) s = .next ((s.setAcc v).advance 2)) :
    ∃ t, exec (Instr.ofKind k arg) s = .next t ∧ t.acc = v ∧ t.pc.toNat = s.pc.toNat + 2 ∧ SameButAccPc s t ∧
      (s.presentsB k.nibble.toNat arg → step s = .next t) :=
  ⟨(s.setAcc v).advance 2, hx, rfl, State.advance_two_pc_toNat (s := s.setAcc v) hpc,
    s.setAcc_advance_sameButAccPc v 2, fun h => (step_of_presentsB h).trans hx⟩

/-! ### The statements about STA, LDA and LDI -/

theorem exec_sta (addr : Byte) (s : State) : exec (.sta addr) s = .next (s.storeAcc addr) := rfl

/-- R121: the argument names the cell that is loaded. -/
theorem exec_lda (addr : Byte) (s : State) : exec (.lda addr) s = .next ((s.setAcc (s.memRead addr)).advance 2) := rfl

/-- R122: the argument is loaded itself. -/
theorem exec_ldi (val : Byte) (s : State) : exec (.ldi val) s = .next ((s.setAcc val).advance 2) := rfl

/-- Settles O22: the next state is `State.storeAcc`, whose reads differ from the old ones at the address alone. -/
theorem staStoresTheAccumulator : Obligations.StaStoresTheAccumulator := by
  intro addr s hpc
  have hother : ∀ a, a ≠ addr → (s.storeAcc addr).memRead a = s.memRead a := fun a ha => by
    rw [State.storeAcc_memRead, if_neg ha]
  have hpc' : (s.storeAcc addr).pc.toNat = s.pc.toNat + 2 :=
    State.advance_two_pc_toNat (s := s.memWrite addr s.acc) hpc
  exact ⟨s.storeAcc addr, exec_sta addr s, s.storeAcc_memRead_self addr, hother, hpc', rfl, ⟨rfl, rfl⟩, ⟨rfl, rfl⟩,
    step_sta⟩

/-- Settles O23: LDA writes the addressed byte to the accumulator and moves on. -/
theorem ldaLoadsTheAddressedByte : Obligations.LdaLoadsTheAddressedByte := fun addr s hpc =>
  completes_of_exec_eq_setAcc (k := .lda) hpc (exec_lda addr s)

/-- Settles O24: LDI writes its argument to the accumulator and moves on. -/
theorem ldiLoadsItsArgument : Obligations.LdiLoadsItsArgument := fun val s hpc =>
  completes_of_exec_eq_setAcc (k := .ldi) hpc (exec_ldi val s)

end Sys2Proof.Machine

end

/-! ## Arithmetic and logic family: ADD, SUB, OR, AND and NOT

Each of the five answers its state with a new accumulator, moved on by its length; `BitVec` says what that
accumulator is as a number or bit by bit. -/

section

namespace Sys2Proof.Machine

/-! ### What each instruction answers -/

/-- R130. -/
theorem exec_add (addr : Byte) (s : State) :
    exec (.add addr) s = .next ((s.setAcc (s.acc + s.memRead addr)).advance 2) := rfl

/-- R134: accumulator minus memory. -/
theorem exec_sub (addr : Byte) (s : State) :
    exec (.sub addr) s = .next ((s.setAcc (s.acc - s.memRead addr)).advance 2) := rfl

/-- R131. -/
theorem exec_or (addr : Byte) (s : State) :
    exec (.or addr) s = .next ((s.setAcc (s.acc ||| s.memRead addr)).advance 2) := rfl

/-- R132. -/
theorem exec_and (addr : Byte) (s : State) :
    exec (.and addr) s = .next ((s.setAcc (s.acc &&& s.memRead addr)).advance 2) := rfl

/-- R133. -/
theorem exec_not (s : State) : exec .not s = .next ((s.setAcc (~~~s.acc)).advance 1) := rfl

/-! ### Numbers -/

/-- R134: the difference of two bytes as an integer, brought into range by the 256 of the rule. -/
theorem byte_sub_toNat (a m : Byte) : ((a - m).toNat : Int) = ((a.toNat : Int) - (m.toNat : Int) + 256) % 256 := by
  have hm : m.toNat < 256 := m.isLt
  rw [BitVec.toNat_sub]
  omega

/-- From inside memory the program counter moves on by 1 without wrapping, at 255 to 256 (R26, R104). -/
theorem State.advance_one_pc_toNat {s : State} (hpc : s.pc.toNat ≤ 255) :
    (s.advance 1).pc.toNat = s.pc.toNat + 1 :=
  pc_add_toNat (n := 1) (by simp; omega)

/-! ### The statements about ADD, SUB, OR, AND and NOT -/

/-- Settles O25: the accumulators are the sum and the difference of bytes, which wrap modulo 256. -/
theorem addAndSubWrapModulo256 : Obligations.AddAndSubWrapModulo256 := by
  refine fun addr s hpc => ⟨?_, ?_⟩
  · obtain ⟨t, ht, hacc, hframe⟩ := completes_of_exec_eq_setAcc (k := .add) hpc (exec_add addr s)
    exact ⟨t, ht, hacc ▸ BitVec.toNat_add _ _, hframe⟩
  · obtain ⟨t, ht, hacc, hframe⟩ := completes_of_exec_eq_setAcc (k := .sub) hpc (exec_sub addr s)
    exact ⟨t, ht, hacc ▸ byte_sub_toNat _ _, hframe⟩

/-- Settles O26: OR and AND of bytes act on each bit alone. -/
theorem orAndAndCombineBits : Obligations.OrAndAndCombineBits := by
  refine fun addr s hpc => ⟨?_, ?_⟩
  · obtain ⟨t, ht, hacc, hframe⟩ := completes_of_exec_eq_setAcc (k := .or) hpc (exec_or addr s)
    exact ⟨t, ht, fun _ _ => hacc ▸ BitVec.getLsbD_or, hframe⟩
  · obtain ⟨t, ht, hacc, hframe⟩ := completes_of_exec_eq_setAcc (k := .and) hpc (exec_and addr s)
    exact ⟨t, ht, fun _ _ => hacc ▸ BitVec.getLsbD_and, hframe⟩

/-- Settles O27: the complement of a byte is its distance from 255; NOT has one byte, so it completes at 255 too. -/
theorem notComplementsTheAccumulator : Obligations.NotComplementsTheAccumulator := fun s hpc =>
  ⟨_, exec_not s, BitVec.toNat_not, State.advance_one_pc_toNat (s := s.setAcc _) hpc,
    s.setAcc_advance_sameButAccPc _ 1, fun h => (step_of_presentsA (k := .not) rfl h).trans (exec_not s)⟩

/-- Settles O36: complementing is an involution, and the SUB reads the cell the ADD read, as an ADD writes no memory. -/
theorem notAndAddAreUndone : Obligations.NotAndAddAreUndone :=
  fun s => ⟨⟨_, _, exec_not s, exec_not _, BitVec.not_not⟩,
    fun addr => ⟨_, _, exec_add addr s, exec_sub addr _, BitVec.add_sub_cancel s.acc (s.memRead addr)⟩⟩

end Sys2Proof.Machine

end

/-! ## Control transfer family: JMP, JN, JZ and JNZ

A jump of any kind answers `branch`, taken as `jumpTaken` decides. What remains is where a branch leads, and R148's
three conditions as facts about the number in the accumulator. -/

section

namespace Sys2Proof.Machine

/-! ### What a jump answers -/

theorem exec_jump {k : Kind} (hk : k ∈ [Kind.jmp, .jn, .jz, .jnz]) (target : Byte) (s : State) :
    exec (Instr.ofKind k target) s = .next (branch (jumpTaken k s.acc) target s) := by
  cases k
  case jmp | jn | jz | jnz => rfl
  all_goals simp at hk

/-- R150: a branch writes nothing but the program counter, taken or not. -/
theorem branch_sameButPc (taken : Bool) (target : Byte) (s : State) : SameButPc s (branch taken target s) :=
  ⟨branch_acc s taken target, fun a => congrArg (·.read a.toNat) (branch_mem s taken target),
    ⟨branch_ports s taken target, branch_hist s taken target⟩, branch_halted s taken target, branch_fault s taken target⟩

/-- A state that presents a jump steps to where its branch leads. -/
theorem step_jump {k : Kind} (hk : k ∈ [Kind.jmp, .jn, .jz, .jnz]) {target : Byte} {s : State}
    (h : s.presentsB k.nibble.toNat target) : step s = .next (branch (jumpTaken k s.acc) target s) :=
  (step_of_presentsB h).trans (exec_jump hk target s)

/-! ### The branch conditions (R148) -/

theorem jnTaken_iff {acc : Byte} : jnTaken acc = true ↔ 64 ≤ acc.toNat := decide_eq_true_iff

theorem jzTaken_iff {acc : Byte} : jzTaken acc = true ↔ acc.toNat = 0 :=
  beq_iff_eq.trans BitVec.toNat_eq

theorem jnzTaken_iff {acc : Byte} : jnzTaken acc = true ↔ acc.toNat ≠ 0 :=
  bne_iff_ne.trans BitVec.toNat_ne_iff_ne.symm

/-- A branch to a target other than the next instruction shows in the program counter whether it was taken. -/
theorem branch_pc_eq_target_iff {s : State} {target : Byte} (hpc : s.pc.toNat ≤ 254)
    (hne : target.toNat ≠ s.pc.toNat + 2) (taken : Bool) :
    (branch taken target s).pc.toNat = target.toNat ↔ taken = true := by
  rw [branch_pc_toNat hpc]
  cases taken with
  | true => simp
  | false => simpa using hne.symm

/-- A jump taken under the condition `P` completes: where it leads, its frame, and the step from a state that presents
it. -/
theorem completes_of_jumpTaken_iff {k : Kind} (hk : k ∈ [Kind.jmp, .jn, .jz, .jnz]) {target : Byte} {s : State}
    (hpc : s.pc.toNat ≤ 254) {P : Prop} [Decidable P] (hP : jumpTaken k s.acc = true ↔ P) :
    ∃ t, exec (Instr.ofKind k target) s = .next t ∧
      t.pc.toNat = (if P then target.toNat else s.pc.toNat + 2) ∧ SameButPc s t ∧
      (s.presentsB k.nibble.toNat target → step s = .next t) :=
  ⟨_, exec_jump hk target s, (branch_pc_toNat hpc _ target).trans (if_congr hP rfl rfl), branch_sameButPc _ target s,
    step_jump hk⟩

/-! ### The statements about JMP, JN, JZ and JNZ -/

/-- Settles O28: a taken branch sets the program counter to the target wherever it stood. -/
theorem jmpGoesToItsTarget : Obligations.JmpGoesToItsTarget := fun target s =>
  ⟨branch true target s, exec_jump (k := .jmp) (by decide) target s, zext9_toNat target,
    branch_sameButPc true target s, step_jump (k := .jmp) (by decide)⟩

/-- Settles O29: each condition is the one R148 gives. -/
theorem conditionalJumpsTestTheAccumulator : Obligations.ConditionalJumpsTestTheAccumulator := fun _ _ hpc =>
  ⟨completes_of_jumpTaken_iff (k := .jn) (by decide) hpc jnTaken_iff,
    completes_of_jumpTaken_iff (k := .jz) (by decide) hpc jzTaken_iff,
    completes_of_jumpTaken_iff (k := .jnz) (by decide) hpc jnzTaken_iff⟩

/-- Settles O30: away from `pc + 2` the program counter tells which jumps were taken, and their conditions on the
accumulator are related as R152 says. -/
theorem branchDecisionsRelate : Obligations.BranchDecisionsRelate := by
  intro target s hpc hne
  refine ⟨branch (jnTaken s.acc) target s, branch (jzTaken s.acc) target s, branch (jnzTaken s.acc) target s,
    exec_jump (k := .jn) (by decide) target s, exec_jump (k := .jz) (by decide) target s,
    exec_jump (k := .jnz) (by decide) target s, ?_⟩
  simp only [ne_eq, branch_pc_eq_target_iff hpc hne, jnTaken_iff, jzTaken_iff, jnzTaken_iff]
  omega

end Sys2Proof.Machine

end

/-! ## Input and output family: IN and OUT

IN answers a loaded port or the PORT_OOB fault, by `exec_inp_of_port` and `exec_inp_of_no_port`. OUT pushes the
accumulator; by induction over the emitted values, the history is those values, latest first, in front of the old
slots. -/

section

namespace Sys2Proof.Machine

/-! ### IN (R160) -/

/-- Settles O31: IN of a port below `IN_PORTS` is a load of its value, and any other index, which 256 ports leave no room
for, is recorded as the fault's info. -/
theorem inLoadsThePortOrFaults : Obligations.InLoadsThePortOrFaults := by
  refine fun port s => ⟨fun h hpc => ?_, fun h => ?_, fun h => h ▸ port.isLt⟩
  · have hread : s.portRead port = some s.ports[port.toNat] := List.getElem?_eq_getElem h
    exact completes_of_exec_eq_setAcc (k := .inp) hpc (exec_inp_of_port hread)
  · have hx := exec_inp_of_no_port h
    exact ⟨_, hx, rfl, rfl, zext9_toNat port, s.raiseFault_sameButFault _ _,
      fun hp => (step_of_presentsB (k := .inp) hp).trans hx⟩

/-! ### OUT (R161, R162) -/

theorem exec_out (s : State) : exec .out s = .next ((s.histPush s.acc).advance 1) := rfl

/-- Settles O32: the next state's history is the pushed one; OUT has one byte, so it completes at 255 too. -/
theorem outEmitsTheAccumulator : Obligations.OutEmitsTheAccumulator := fun s hpc =>
  ⟨_, exec_out s, History.push_getElem s.acc s.hist 0 (by decide),
    fun n h => History.push_getElem s.acc s.hist (n + 1) h,
    State.advance_one_pc_toNat (s := s.histPush s.acc) hpc, rfl, rfl, fun _ => rfl, ⟨rfl, rfl⟩,
    fun h => (step_of_presentsA (k := .out) rfl h).trans (exec_out s)⟩

theorem State.emitAll_nil (s : State) : s.emitAll [] = .next s := rfl

theorem State.emitAll_cons (v : Byte) (vs : List Byte) (s : State) :
    s.emitAll (v :: vs) = (((s.setAcc v).histPush v).advance 1).emitAll vs := rfl

/-- R162 from any history: the emitted values stand in front, latest first, and the old slots behind them. -/
theorem State.emitAll_hist (vs : List Byte) (s : State) :
    ∃ t, s.emitAll vs = .next t ∧ ∀ (i : Nat) (hi : i < Config.histDepth),
      t.hist[i] = if h : i < vs.length then vs[vs.length - 1 - i] else s.hist[i - vs.length] := by
  induction vs generalizing s with
  | nil => exact ⟨s, s.emitAll_nil, fun i hi => by simp⟩
  | cons v vs ih =>
    obtain ⟨t, ht, hslots⟩ := ih (((s.setAcc v).histPush v).advance 1)
    refine ⟨t, (s.emitAll_cons v vs).trans ht, fun i hi => ?_⟩
    rw [hslots i hi]
    rcases Nat.lt_trichotomy i vs.length with hlt | rfl | hgt
    · have hlater : vs.length - i = vs.length - 1 - i + 1 := by omega
      simp [hlt, Nat.lt_succ_of_lt hlt, hlater]
    · simp [History.push_getElem]
    · have hold : i - vs.length ≠ 0 := by omega
      simp [History.push_getElem, hold, hgt.not_gt, Nat.not_lt.2 hgt, Nat.sub_sub]

/-- Settles O33: `History.push_getElem` and `State.emitAll_hist`, where every old slot is 0. -/
theorem historyHoldsTheLastFortyValues : Obligations.HistoryHoldsTheLastFortyValues := by
  refine ⟨History.push_getElem, fun vs s hzero => ?_⟩
  obtain ⟨t, ht, hslots⟩ := s.emitAll_hist vs
  exact ⟨t, ht, fun i hi => by simp only [hslots i hi, hzero]⟩

end Sys2Proof.Machine

end

/-! ## System family: NOP and HLT

Both have one byte and move the program counter on by 1; HLT also halts, so the state it leaves is ended and every later
step holds it. -/

section

namespace Sys2Proof.Machine

/-- R170. -/
theorem exec_nop (s : State) : exec .nop s = .next (s.advance 1) := rfl

/-- R172. -/
theorem exec_hlt (s : State) : exec .hlt s = .next (s.halt.advance 1) := rfl

/-- R101, R172: the run is over in the state HLT leaves, wherever its program counter stands. -/
theorem State.halt_advance_ended (s : State) (n : PcWord) : (s.halt.advance n).ended = true :=
  State.ended_eq_true.2 (.inl rfl)

/-- Settles O34: the next state differs in the program counter alone, which at 255 moves on to 256. -/
theorem nopOnlyAdvances : Obligations.NopOnlyAdvances := fun s hpc =>
  ⟨s.advance 1, exec_nop s, State.advance_one_pc_toNat hpc, ⟨rfl, fun _ => rfl, ⟨rfl, rfl⟩, rfl, rfl⟩, step_nop⟩

/-- Settles O35: the next state is halted, hence ended, and an ended state steps to itself. -/
theorem hltHaltsBehindItself : Obligations.HltHaltsBehindItself := by
  intro s hpc
  have hstep (h : s.presentsA 0xF) : step s = .next (s.halt.advance 1) :=
    (step_of_presentsA (k := .hlt) rfl h).trans (exec_hlt s)
  have hstay (n : Nat) : (s.halt.advance 1).steps n = .next (s.halt.advance 1) :=
    State.steps_of_fixed (step_of_ended (s.halt_advance_ended 1)) n
  exact ⟨s.halt.advance 1, exec_hlt s, rfl, State.advance_one_pc_toNat (s := s.halt) hpc, rfl, fun _ => rfl,
    ⟨rfl, rfl⟩, rfl, hstep, hstay⟩

end Sys2Proof.Machine

end

/-! ## Exceptions family: the three faults

The checks of R182, in their order, decide which fault a step of a running state raises; behind all three, the
instruction completes and leaves the fault record alone. -/

section

namespace Sys2Proof.Machine

/-! ### The instruction behind the fetch checks -/

/-- R182: the program counter and the bytes behind it pass both fetch checks. -/
def State.fetchPasses (s : State) : Prop :=
  s.pc.toNat ≤ 255 ∧ ¬(s.pc.toNat = 255 ∧ s.kindAtPc.needsArg = true)

/-- R102, R103: past the fetch checks, a running state executes the kind at its program counter. -/
theorem step_of_fetchPasses {s : State} (he : s.ended = false) (hf : s.fetchPasses) :
    step s = exec (Instr.ofKind s.kindAtPc s.argumentByte) s := by
  obtain ⟨hpc, harg⟩ := hf
  rw [step_eq, if_neg (by simp [he]), if_neg (by omega), if_neg harg]

/-- R160: the step of an IN whose index lies at or above `IN_PORTS`. -/
theorem step_portOob {s : State} (he : s.ended = false) (hf : s.fetchPasses) (hk : s.kindAtPc = .inp)
    (hport : s.ports.length ≤ s.argumentByte.toNat) :
    step s = .next (s.raiseFault .portOob (zext9 s.argumentByte)) := by
  rw [step_of_fetchPasses he hf, hk]
  exact exec_inp_of_no_port hport

/-- R180: past all three checks, a step completes its instruction. -/
theorem step_completes {s : State} (he : s.ended = false) (hf : s.fetchPasses)
    (hport : ¬(s.kindAtPc = .inp ∧ s.ports.length ≤ s.argumentByte.toNat)) :
    ∃ t, step s = .next t ∧ Completion s s.argumentByte s.kindAtPc t := by
  obtain ⟨t, ht⟩ := exec_next (Instr.ofKind s.kindAtPc s.argumentByte) s
  refine ⟨t, (step_of_fetchPasses he hf).trans ht, (exec_completes ht).resolve_right ?_⟩
  exact fun ⟨hk, hp, _⟩ => hport ⟨hk, hp⟩

/-! ### The statements about faults -/

/-- R183: a step that turns `fault.valid` from 0 to 1 is one raising of a fault with a cause. -/
theorem eq_raiseFault_of_step {s t : State} (hs : s.fault.valid = false) (h : step s = .next t)
    (ht : t.fault.valid = true) : ∃ cause info, cause ≠ .none ∧ t = s.raiseFault cause info := by
  rcases step_cases s with ⟨_, hstep⟩ | ⟨_, _, hstep⟩ | ⟨_, _, _, hstep⟩ | ⟨_, _, _, hstep⟩
  · cases h.symm.trans hstep
    simp [hs] at ht
  · exact ⟨.fetchOob, _, nofun, Host.Outcome.next.inj (h.symm.trans hstep)⟩
  · exact ⟨.argOob, _, nofun, Host.Outcome.next.inj (h.symm.trans hstep)⟩
  · rcases exec_completes (hstep.symm.trans h) with hc | ⟨_, _, hraise⟩
    · simp [hc.fault_eq, hs] at ht
    · exact ⟨.portOob, _, nofun, hraise⟩

/-- Settles O18: the step raised a fault, and raising one leaves every other field as it was. -/
theorem faultingStepWritesOnlyTheFaultRecord : Obligations.FaultingStepWritesOnlyTheFaultRecord := by
  intro s t hs h ht
  obtain ⟨cause, info, hcause, rfl⟩ := eq_raiseFault_of_step hs h ht
  exact ⟨hcause, rfl, rfl, rfl, rfl, rfl, rfl⟩

/-- Settles O19: one law of the step for each outcome of the three checks. -/
theorem exactlyThreeFaults : Obligations.ExactlyThreeFaults := by
  refine ⟨⟨rfl, rfl, rfl, rfl⟩, fun s he => ?_⟩
  split_ifs with hpc harg hport
  · exact ⟨_, step_fetchOob he hpc, rfl, fun hle => le_antisymm hle hpc⟩
  · obtain ⟨h255, hk⟩ := harg
    exact ⟨_, step_argOob he h255 hk, rfl, rfl, by simp [h255]⟩
  · obtain ⟨hk, hp⟩ := hport
    have hcount : s.ports.length ≠ 256 := (hp.trans_lt s.argumentByte.isLt).ne
    exact ⟨_, step_portOob he ⟨by omega, harg⟩ hk hp, rfl, rfl, zext9_toNat _, hcount⟩
  · obtain ⟨t, ht, hc⟩ := step_completes he ⟨by omega, harg⟩ hport
    exact ⟨t, ht, hc.fault_eq⟩

end Sys2Proof.Machine

end

/-! ## Reset family: the reset edge and images that are too long

Both statements follow from what `Block.edge` and `construct` answer in the one case they speak of, named below or
among the clock laws. -/

section

namespace Sys2Proof.Machine

/-! ### The reset edge (R210) -/

/-- Every slot of the output history is zero after reset (R38, D7). -/
theorem State.resetWith_hist_getElem (image ports : List Byte) {n : Nat} (h : n < Config.histDepth) :
    (State.resetWith image ports).hist[n] = 0 := by
  rw [State.resetWith_hist, Vector.getElem_replicate]

/-- Settles O3: a reset edge on `IN_PORTS` ports answers `State.resetWith` of the block's image, whatever the core and
the step in progress were. -/
theorem resetEdgeReloadsTheWholeState : Obligations.ResetEdgeReloadsTheWholeState := by
  intro i k hr hl
  have hmem := State.memRead_resetWith k.image i.inPort
  have hhist := fun n => State.resetWith_hist_getElem k.image i.inPort (n := n)
  exact ⟨_, Block.edge_reset hr hl, rfl, rfl, rfl, rfl, rfl, hmem, hhist, rfl, rfl, rfl⟩

/-! ### Images over 256 bytes (R211) -/

/-- The length of the image is checked first: whatever the ports, an image over 256 bytes is the reason given. -/
theorem construct_of_oversize {b : Config.Build} (h : 256 < b.image.length) : construct b = .refused .imageTooLong := by
  have himg : b.imageFits = false := decide_eq_false (Nat.not_le.2 h)
  simp [construct, himg]

/-- A refused construction builds no block, for the same reason. -/
theorem Block.build_of_refused {b : Config.Build} {r : Refusal} (h : construct b = .refused r) :
    Block.build b = .refused r := by
  simp [Block.build, h]

/-- Settles O2: `construct` refuses the image, and `Block.build` passes its refusal on. -/
theorem oversizeImagesAreRefused : Obligations.OversizeImagesAreRefused := by
  intro b h
  have hc := construct_of_oversize h
  exact ⟨hc, Block.build_of_refused hc⟩

end Sys2Proof.Machine

end

/-! ## Other statements: the canonical memory form and the text of a program

A canonical memory lists exactly the cells that read as something other than zero, in rising order, so what it reads
fixes it. The text of a program is cut at its separators into the texts of its instructions, which the encoding family
reads back one by one. -/

section

namespace Sys2Proof.Machine

/-! ### Canonical memories (20_memory.md section 1; log entry 3) -/

/-- With rising addresses a listed cell is the one its address reads. -/
theorem Memory.read_of_mem {m : Memory} (hm : m.Pairwise fun c d => c.1 < d.1) {c : Host.Cell} (hc : c ∈ m) :
    m.read c.1 = c.2 := by
  induction m with
  | nil => simp at hc
  | cons d m ih =>
    obtain ⟨hd, hrising⟩ := List.pairwise_cons.1 hm
    rw [Memory.read_cons]
    rcases List.mem_cons.1 hc with rfl | hc
    · exact if_pos rfl
    · rw [if_neg (hd c hc).ne]
      exact ih hrising hc

/-- An address that reads as something other than zero is listed with what it reads. -/
theorem Memory.mem_of_read_ne_zero {m : Memory} {a : Nat} (h : m.read a ≠ 0) : (a, m.read a) ∈ m := by
  induction m with
  | nil => exact absurd (Memory.read_nil a) h
  | cons d m ih =>
    rw [Memory.read_cons] at h ⊢
    by_cases hd : d.1 = a
    · rw [if_pos hd, ← hd]
      exact List.mem_cons_self
    · rw [if_neg hd] at h ⊢
      exact List.mem_cons_of_mem _ (ih h)

/-- The cells of a canonical memory, told by its reads alone. -/
theorem Memory.wf.mem_iff_read {m : Memory} (hm : m.wf) {c : Host.Cell} :
    c ∈ m ↔ c.1 < Config.memSize ∧ c.2 ≠ 0 ∧ m.read c.1 = c.2 := by
  obtain ⟨hrising, hcells⟩ := hm
  constructor
  · intro hc
    obtain ⟨haddr, hbyte⟩ := hcells c hc
    exact ⟨haddr, hbyte, Memory.read_of_mem hrising hc⟩
  · rintro ⟨-, hbyte, hread⟩
    have hc := Memory.mem_of_read_ne_zero (hread ▸ hbyte)
    rwa [hread] at hc

/-- Settles O42: canonical memories that read the same list the same cells (`Memory.wf.mem_iff_read`), and rising
addresses fix their order. -/
theorem memoryFormIsCanonical : Obligations.MemoryFormIsCanonical := by
  intro m m' hm hm' hread
  refine List.Pairwise.eq_of_mem_iff hm.1 hm'.1 fun c => ?_
  rw [hm.mem_iff_read, hm'.mem_iff_read]
  exact and_congr_right fun haddr => by rw [hread c.1 haddr]

end Sys2Proof.Machine

namespace Sys2Proof

namespace Assembly

/-! ### The text of a program (R89) -/

theorem pieces_ne_nil (cs : List Char) : pieces cs ≠ [] := by
  cases cs with
  | nil => simp [pieces]
  | cons c cs =>
    rw [pieces]
    split
    · simp
    · split <;> simp

/-- The first separator of a text ends its first piece. -/
theorem pieces_append_separator {cs : List Char} {sep : Char} (h : ∀ c ∈ cs, isSeparator c = false)
    (hsep : isSeparator sep = true) (rest : List Char) : pieces (cs ++ sep :: rest) = cs :: pieces rest := by
  induction cs with
  | nil => simp [pieces, hsep]
  | cons c cs ih =>
    obtain ⟨hc, hcs⟩ := List.forall_mem_cons.1 h
    simp [pieces, hc, ih hcs]

/-- A blank in front of a text is left out with the blanks in front of its first piece (log entry 12). -/
theorem parsePieces_pieces_blank (cs : List Char) : parsePieces (pieces (' ' :: cs)) = parsePieces (pieces cs) := by
  obtain ⟨p, ps, h⟩ := List.exists_cons_of_ne_nil (pieces_ne_nil cs)
  have hblank : pieces (' ' :: cs) = (' ' :: p) :: ps := by simp [pieces, isSeparator, h]
  simp [hblank, h, parsePieces]

theorem parsePieces_showInstr_cons {i : Instr} {ps : List (List Char)} {is : List Instr}
    (h : parsePieces ps = some is) : parsePieces (showInstr i :: ps) = some (i :: is) := by
  simp [parsePieces, dropWhile_blank_showInstr, parseInstr_showInstr, h]

/-- The pieces of a program's text are the texts of its instructions, all but the first behind a blank. -/
theorem parsePieces_pieces_showProgram (i : Instr) (is : List Instr) :
    parsePieces (pieces (showProgram (i :: is))) = some (i :: is) := by
  induction is generalizing i with
  | nil =>
    rw [showProgram, pieces_of_no_separator fun _ => isSeparator_of_mem_showInstr]
    exact parsePieces_showInstr_cons rfl
  | cons j is ih =>
    rw [showProgram, pieces_append_separator (fun _ => isSeparator_of_mem_showInstr) rfl]
    exact parsePieces_showInstr_cons ((parsePieces_pieces_blank _).trans (ih j))

theorem showProgram_cons_ne_nil (i : Instr) (is : List Instr) : showProgram (i :: is) ≠ [] := by
  obtain ⟨c, cs, h, -⟩ := showInstr_eq_cons i
  cases is <;> simp [showProgram, h]

end Assembly

/-- Settles O14: a program's text is read piece by piece (`Assembly.parsePieces_pieces_showProgram`); the empty text is
the empty program. -/
theorem assemblyTextReadsBack : Obligations.AssemblyTextReadsBack := by
  intro p
  cases p with
  | nil => rfl
  | cons i is =>
    rw [Assembly.parse_of_ne_nil (Assembly.showProgram_cons_ne_nil i is)]
    exact Assembly.parsePieces_pieces_showProgram i is

end Sys2Proof

end
